-- ==== Sys2Proof/Word.lean ====
section
/-! DEFINITION. The widths of the 8-bit_cpu ISA (00_scope.md R5, R9): every architectural value is an unsigned
integer of a stated width. -/

namespace Sys2Proof

/-- A register, a memory cell, an opcode, the program counter: 8 bits (00_scope.md R5, `XLEN = 8`). -/
abbrev Byte := BitVec 8

/-- The Move immediate: 4 bits (00_scope.md R9). -/
abbrev Nibble := BitVec 4

end Sys2Proof
end

