-- ==== Sys2Proof/Syntax.lean ====
section
/-! DEFINITION. The instructions of the 8-bit_cpu ISA: one constructor of `Instr` per row of spec/opcode_table.json
(30_encoding.md R72), and the names the encoding tables speak of. -/

namespace Sys2Proof

/-- The four general registers `r0` to `r3` (10_state.md R21). -/
inductive Reg
  | r0 | r1 | r2 | r3
  deriving DecidableEq, Repr

/-- The four ALU operations (43_alu.md R126). -/
inductive AluOp
  | add | sub | and | or
  deriving DecidableEq, Repr

/-- The four branch conditions (42_branch.md R110). -/
inductive Cond
  | always | eq | ne | ge
  deriving DecidableEq, Repr

/-- A decoded instruction. ALU instructions name their destination `rd` first, as the assembly does (30_encoding.md R72).
`illegal` is the decoder's verdict `Illegal` on the opcodes 0xB0 to 0xBF (30_encoding.md R71), with the opcode's low nibble,
so that the fault record can hold the whole opcode (60_exceptions.md R182). -/
inductive Instr
  | movl (r : Reg) (imm4 : Nibble)
  | movh (r : Reg) (imm4 : Nibble)
  | ld (r : Reg)
  | st (r : Reg)
  | b (r : Reg)
  | beq (r : Reg)
  | bne (r : Reg)
  | bge (r : Reg)
  | add (rd rs : Reg)
  | sub (rd rs : Reg)
  | and (rd rs : Reg)
  | or (rd rs : Reg)
  | illegal (low : Nibble)
  deriving DecidableEq, Repr

/-- A row of spec/opcode_table.json: an opcode `op` is the row's exactly when `op &&& mask = pattern` (30_encoding.md R72). -/
structure OpcodeRow where
  mnemonic : String
  pattern : Byte
  mask : Byte
  deriving DecidableEq, Repr

/-- Why a sequence of bytes is no instruction. Opcodes are never rejected here: `Instr.illegal` is the decode of
an illegal one (30_encoding.md R66: the decoder is total on the 256 opcodes). -/
inductive DecodeReject
  /-- There is no byte to read. -/
  | noOpcode
  deriving DecidableEq, Repr

end Sys2Proof
end

