-- ==== Sys2Proof/Config.lean ====
section
/-! DEFINITION. The parameters of a run (00_scope.md R6), as plain data. Their default values stand in
Sys2Proof/Decode.lean (the two code tables) and Sys2Proof/Machine/Params.lean. -/

namespace Sys2Proof

/-- The register file's shape: four 8-bit cells, none hardwired (10_state.md R21). -/
structure RegFile where
  x0 : Byte
  x1 : Byte
  x2 : Byte
  x3 : Byte
  deriving DecidableEq, Repr

/-- `OOB_POLICY` (20_memory.md R45): what LD and ST do with a data address of 10 or more. -/
inductive OobPolicy
  | wrap | fault
  deriving DecidableEq, Repr

/-- `SUB_ORDER` (43_alu.md R123): which ALU input is the minuend of SUB. -/
inductive SubOrder
  | rdMinusRs | rsMinusRd
  deriving DecidableEq, Repr

/-- `ALU_CODE` (30_encoding.md R70): the operation each 2-bit code selects. Code 00 is ADD and so has no entry. -/
structure AluCode where
  at01 : AluOp
  at10 : AluOp
  at11 : AluOp
  deriving DecidableEq, Repr

/-- `COND_CODE` (30_encoding.md R69): the condition each 2-bit code selects. -/
structure CondCode where
  at00 : Cond
  at01 : Cond
  at10 : Cond
  at11 : Cond
  deriving DecidableEq, Repr

/-- The two code tables the decoder uses (30_encoding.md R64). -/
structure Codes where
  alu : AluCode
  cond : CondCode
  deriving DecidableEq, Repr

/-- The parameters of a run other than `IMAGE` (00_scope.md R6). `regReset` is `REG_RESET`, one value per register
(10_state.md R22); `debugEn` and `logEn` are the host's two booleans (60_exceptions.md R200, R201). -/
structure Config where
  oobPolicy : OobPolicy
  codes : Codes
  subOrder : SubOrder
  regReset : RegFile
  debugEn : Bool
  logEn : Bool
  deriving DecidableEq, Repr

end Sys2Proof
end

