-- ==== Sys2Proof/WellFormed.lean ====
section
/-! DEFINITION. What makes a configuration and an instruction well formed. -/

namespace Sys2Proof

/-- `ALU_CODE` is a bijection with ADD fixed at 00 (30_encoding.md R70): the other three codes select three different
operations, none of them ADD. -/
def AluCode.wf (t : AluCode) : Bool :=
  t.at01 != .add && t.at10 != .add && t.at11 != .add &&
  t.at01 != t.at10 && t.at01 != t.at11 && t.at10 != t.at11

/-- `COND_CODE` is a bijection (30_encoding.md R69). -/
def CondCode.wf (t : CondCode) : Bool :=
  t.at00 != t.at01 && t.at00 != t.at10 && t.at00 != t.at11 &&
  t.at01 != t.at10 && t.at01 != t.at11 && t.at10 != t.at11

def Codes.wf (k : Codes) : Bool := k.alu.wf && k.cond.wf

/-- The only parameters that can be ill formed are the code tables: every value of the others is a configuration of R6. -/
def Config.wf (c : Config) : Bool := c.codes.wf

/-- Every field of every instruction has exactly the width of its opcode field (00_scope.md R9, 30_encoding.md R61 to R63), by
type, so every instruction is well formed. -/
def Instr.wf : Instr → Bool
  | .movl _ _ => true
  | .movh _ _ => true
  | .ld _ => true
  | .st _ => true
  | .b _ => true
  | .beq _ => true
  | .bne _ => true
  | .bge _ => true
  | .add _ _ => true
  | .sub _ _ => true
  | .and _ _ => true
  | .or _ _ => true
  | .illegal _ => true

end Sys2Proof
end

