-- ==== Sys2Proof/Decode.lean ====
section
/-! DEFINITION. The decoder (30_encoding.md R64), total on the 256 opcodes, and the encoder, written from the same
encoding tables (R61, R62, R63, R69, R70). Bit positions are LSB-0 in comments; `extract` counts from the most
significant end, as the document does (00_scope.md R7, R8). -/

namespace Sys2Proof

/-- The document's extraction primitive (00_scope.md R8): the `width` bits that begin at MSB-first position `start`. -/
def extract (v : Byte) (start width : Nat) : BitVec width :=
  v.extractLsb' (8 - start - width) width

/-- A 2-bit register index (10_state.md R21). -/
def regOfBits (b : BitVec 2) : Reg :=
  match b.toNat with
  | 0 => .r0
  | 1 => .r1
  | 2 => .r2
  | _ => .r3

def regBits : Reg → BitVec 2
  | .r0 => 0b00#2
  | .r1 => 0b01#2
  | .r2 => 0b10#2
  | .r3 => 0b11#2

/-- The default `ALU_CODE`: ADD=0, SUB=1, AND=2, OR=3 (30_encoding.md R70, the spec's decision D4). -/
def defaultAluCode : AluCode := { at01 := .sub, at10 := .and, at11 := .or }

/-- The default `COND_CODE`: ALWAYS=0, EQ=1, NE=2, GE=3 (30_encoding.md R69, the spec's decision D5). -/
def defaultCondCode : CondCode := { at00 := .always, at01 := .eq, at10 := .ne, at11 := .ge }

def defaultCodes : Codes := { alu := defaultAluCode, cond := defaultCondCode }

/-- `ALU_CODE^-1`: the operation of a 2-bit code (30_encoding.md R64, R70). -/
def aluOpOf (t : AluCode) (code : BitVec 2) : AluOp :=
  match code.toNat with
  | 0 => .add
  | 1 => t.at01
  | 2 => t.at10
  | _ => t.at11

/-- `ALU_CODE`: the 2-bit code of an operation, for a well-formed table. -/
def aluCodeOf (t : AluCode) (o : AluOp) : BitVec 2 :=
  if o = .add then 0b00#2
  else if o = t.at01 then 0b01#2
  else if o = t.at10 then 0b10#2
  else 0b11#2

/-- `COND_CODE^-1`: the condition of a 2-bit code (30_encoding.md R64, R69). -/
def condOf (t : CondCode) (code : BitVec 2) : Cond :=
  match code.toNat with
  | 0 => t.at00
  | 1 => t.at01
  | 2 => t.at10
  | _ => t.at11

/-- `COND_CODE`: the 2-bit code of a condition, for a well-formed table. -/
def condCodeOf (t : CondCode) (c : Cond) : BitVec 2 :=
  if c = t.at00 then 0b00#2
  else if c = t.at01 then 0b01#2
  else if c = t.at10 then 0b10#2
  else 0b11#2

/-- The four ALU instructions by operation (30_encoding.md R72). -/
def aluInstr (o : AluOp) (rd rs : Reg) : Instr :=
  match o with
  | .add => .add rd rs
  | .sub => .sub rd rs
  | .and => .and rd rs
  | .or => .or rd rs

/-- The four branches by condition (30_encoding.md R72). -/
def branchInstr (c : Cond) (r : Reg) : Instr :=
  match c with
  | .always => .b r
  | .eq => .beq r
  | .ne => .bne r
  | .ge => .bge r

/-- The decoder: the two-tier dispatch of 30_encoding.md R64. -/
def decodeWith (k : Codes) (op : Byte) : Instr :=
  if extract op 0 2 = 0b00#2 then .movl (regOfBits (extract op 2 2)) (extract op 4 4)
  else if extract op 0 2 = 0b01#2 then .movh (regOfBits (extract op 2 2)) (extract op 4 4)
  else if extract op 0 2 = 0b11#2 then
    aluInstr (aluOpOf k.alu (extract op 2 2)) (regOfBits (extract op 6 2)) (regOfBits (extract op 4 2))
  else if extract op 0 4 = 0b1000#4 then .ld (regOfBits (extract op 6 2))
  else if extract op 0 4 = 0b1001#4 then .st (regOfBits (extract op 6 2))
  else if extract op 0 4 = 0b1010#4 then
    branchInstr (condOf k.cond (extract op 4 2)) (regOfBits (extract op 6 2))
  else .illegal (extract op 4 4)

/-- The decoder under the default code tables. -/
def decode (op : Byte) : Instr := decodeWith defaultCodes op

/-- The illegal opcode with a given low nibble, 0xB0 to 0xBF (30_encoding.md R71). -/
def illegalOpcode (low : Nibble) : Byte := 0b1011#4 ++ low

/-- Format M, `pprriiii` (30_encoding.md R61). -/
def formatM (p : BitVec 2) (r : Reg) (imm4 : Nibble) : Byte := p ++ regBits r ++ imm4

/-- Format S, `ppppccrr` (30_encoding.md R62). -/
def formatS (p : BitVec 4) (c : BitVec 2) (r : Reg) : Byte := p ++ c ++ regBits r

/-- Format A, `11aassdd` (30_encoding.md R63). -/
def formatA (aop : BitVec 2) (rs rd : Reg) : Byte := 0b11#2 ++ aop ++ regBits rs ++ regBits rd

/-- The one byte of an instruction (30_encoding.md R60). The ignored bits of LD and ST are 00, the canonical
encoding (30_encoding.md R68). -/
def encodeWith (k : Codes) : Instr → Byte
  | .movl r imm4 => formatM 0b00#2 r imm4
  | .movh r imm4 => formatM 0b01#2 r imm4
  | .ld r => formatS 0b1000#4 0b00#2 r
  | .st r => formatS 0b1001#4 0b00#2 r
  | .b r => formatS 0b1010#4 (condCodeOf k.cond .always) r
  | .beq r => formatS 0b1010#4 (condCodeOf k.cond .eq) r
  | .bne r => formatS 0b1010#4 (condCodeOf k.cond .ne) r
  | .bge r => formatS 0b1010#4 (condCodeOf k.cond .ge) r
  | .add rd rs => formatA (aluCodeOf k.alu .add) rs rd
  | .sub rd rs => formatA (aluCodeOf k.alu .sub) rs rd
  | .and rd rs => formatA (aluCodeOf k.alu .and) rs rd
  | .or rd rs => formatA (aluCodeOf k.alu .or) rs rd
  | .illegal low => illegalOpcode low

/-- The encoder under the default code tables. -/
def encode (i : Instr) : Byte := encodeWith defaultCodes i

/-- The mnemonic of an instruction's row (30_encoding.md R72). -/
def mnemonic : Instr → String
  | .movl _ _ => "MOVL"
  | .movh _ _ => "MOVH"
  | .ld _ => "LD"
  | .st _ => "ST"
  | .b _ => "B"
  | .beq _ => "BEQ"
  | .bne _ => "BNE"
  | .bge _ => "BGE"
  | .add _ _ => "ADD"
  | .sub _ _ => "SUB"
  | .and _ _ => "AND"
  | .or _ _ => "OR"
  | .illegal _ => "ILLEGAL"

/-- The rows of 30_encoding.md R72 and the illegal range of R71, as spec/opcode_table.json lists them. They hold for the
default code tables. -/
def opcodeTable : List OpcodeRow :=
  [ ⟨"MOVL", 0x00, 0xC0⟩, ⟨"MOVH", 0x40, 0xC0⟩, ⟨"LD", 0x80, 0xF0⟩, ⟨"ST", 0x90, 0xF0⟩,
    ⟨"B", 0xA0, 0xFC⟩, ⟨"BEQ", 0xA4, 0xFC⟩, ⟨"BNE", 0xA8, 0xFC⟩, ⟨"BGE", 0xAC, 0xFC⟩,
    ⟨"ADD", 0xC0, 0xF0⟩, ⟨"SUB", 0xD0, 0xF0⟩, ⟨"AND", 0xE0, 0xF0⟩, ⟨"OR", 0xF0, 0xF0⟩,
    ⟨"ILLEGAL", 0xB0, 0xF0⟩ ]

/-- The rows an opcode belongs to. -/
def rowsOf (op : Byte) : List OpcodeRow :=
  opcodeTable.filter fun row => op &&& row.mask == row.pattern

/-- Reads one instruction from the front of a byte sequence and returns the rest: one byte, always (30_encoding.md R60). -/
def decodeBytes : List Byte → Except DecodeReject (Instr × List Byte)
  | [] => .error .noOpcode
  | op :: rest => .ok (decode op, rest)

/-- The bytes of an instruction whose bits are `w`, the lowest byte first; bits above `nbits` are 0. At least one byte,
since every instruction has one. -/
def wordBytes (nbits w : Nat) : List Byte :=
  (List.range (max 1 ((nbits + 7) / 8))).map fun k => BitVec.ofNat 8 ((w % 2 ^ nbits) / 256 ^ k)

/-- What the decoder reads from an instruction of `nbits` bits `w`: none where bytes are left over, since no instruction is
longer than one byte. -/
def decodeTableWord (nbits w : Nat) : Option Instr :=
  match decodeBytes (wordBytes nbits w) with
  | .ok (i, []) => some i
  | _ => none

end Sys2Proof
end

