-- ==== Sys2Proof/Machine/Flags.lean ====
section
/-! DEFINITION. The two flags: how the ALU computes them (43_alu.md R121) and how the branches read them (42_branch.md R110). -/

namespace Sys2Proof.Machine

/-- `zf <- (result = 0)` (43_alu.md R121). -/
def zeroFlag (result : Byte) : Bool := result == 0x00#8

/-- `sf <- result[7]`, the most significant bit, `extract(result, 0, 1)` (43_alu.md R121, 90_conflicts.md C2). -/
def signFlag (result : Byte) : Bool := extract result 0 1 == 1#1

/-- `holds`, the branch condition on the flags (42_branch.md R110). -/
def condHolds (c : Cond) (zf sf : Bool) : Bool :=
  match c with
  | .always => true
  | .eq => zf
  | .ne => !zf
  | .ge => !sf

end Sys2Proof.Machine
end

