-- ==== Sys2Proof/Machine/Memory.lean ====
section
/-! DEFINITION. The memory array (10_state.md R29, 20_memory.md R40): ten byte cells at addresses 0 to 9, held as a list of
(address, byte) pairs in one canonical form. -/

namespace Sys2Proof.Machine

/-- `MEM_SIZE` (00_scope.md R5): addresses 0 to 9 exist and no others (20_memory.md R44). -/
abbrev memSize : Nat := 10

/-- The cells that differ from `unlistedByte`, addresses strictly rising (`Memory.wf`). -/
abbrev Memory := List Host.Cell

/-- What an unlisted cell reads as: 0x00, the value the host's container is initialised to (70_reset_and_hazards.md R212). -/
def unlistedByte : Byte := 0x00#8

/-- `mem[a]` (00_scope.md R10). -/
def Memory.read : Memory → Nat → Byte
  | [], _ => unlistedByte
  | (b, v) :: rest, a => if b = a then v else Memory.read rest a

/-- Puts a cell before the first one of a higher address. -/
def Memory.insertCell (a : Nat) (v : Byte) : Memory → Memory
  | [] => [(a, v)]
  | (b, w) :: rest => if a < b then (a, v) :: (b, w) :: rest else (b, w) :: Memory.insertCell a v rest

/-- Takes every entry of one address away. -/
def Memory.erase (a : Nat) : Memory → Memory
  | [] => []
  | (b, w) :: rest => if b = a then Memory.erase a rest else (b, w) :: Memory.erase a rest

/-- `mem[a] <- v` (00_scope.md R10). A cell that gets the unlisted value loses its entry, so that equal memories are
equal lists. -/
def Memory.write (m : Memory) (a : Nat) (v : Byte) : Memory :=
  if v = unlistedByte then Memory.erase a m else Memory.insertCell a v (Memory.erase a m)

/-- The canonical form from address `lo` on. -/
def Memory.wfFrom (lo : Nat) : Memory → Bool
  | [] => true
  | (a, v) :: rest => decide (lo ≤ a) && decide (a < memSize) && decide (v ≠ unlistedByte) && Memory.wfFrom (a + 1) rest

/-- The canonical form: addresses strictly rising and below `memSize`, no entry equal to what an unlisted cell reads as. -/
def Memory.wf (m : Memory) : Bool := Memory.wfFrom 0 m

/-- Stores bytes at rising addresses from `a`. -/
def Memory.storeFrom (m : Memory) (a : Nat) : List Byte → Memory
  | [] => m
  | v :: rest => Memory.storeFrom (m.write a v) (a + 1) rest

/-- The memory image of a program file (70_reset_and_hazards.md R212): file byte `k` goes to address `k`, bytes from
the eleventh on are ignored, and cells the file does not reach are 0x00. -/
def Memory.ofFile (file : List Byte) : Memory := Memory.storeFrom [] 0 (file.take memSize)

end Sys2Proof.Machine
end

