-- ==== Sys2Proof/Machine/Params.lean ====
section
/-! DEFINITION. The default value of every parameter (00_scope.md R6). -/

namespace Sys2Proof.Machine

/-- The defaults of 00_scope.md R6: `OOB_POLICY = wrap` (D1), `ALU_CODE` and `COND_CODE` in listing order (D4, D5),
`SUB_ORDER = rd_minus_rs` (D3), `REG_RESET = 0x00` (D8). R6 gives the two host booleans no default.
DESIGN CHOICE (log 9): both are clear, which is unsafe only for a statement about the debug pause. -/
def defaultConfig : Config :=
  { oobPolicy := .wrap
    codes := defaultCodes
    subOrder := .rdMinusRs
    regReset := { x0 := 0x00#8, x1 := 0x00#8, x2 := 0x00#8, x3 := 0x00#8 }
    debugEn := false
    logEn := false }

end Sys2Proof.Machine
end

