-- ==== Sys2Proof/Machine/State.lean ====
section
/-! DEFINITION. The state of the machine (10_state.md R20), the reasons a step can stop, and reset. -/

namespace Sys2Proof.Machine

/-- The two causes of a machine fault (60_exceptions.md R181). -/
inductive FaultCause
  /-- An illegal opcode was fetched for execution (60_exceptions.md R182). -/
  | decodeError
  /-- LD or ST with an address of 10 or more under `OOB_POLICY = fault` (60_exceptions.md R183). -/
  | boundsError
  deriving DecidableEq, Repr

/-- What the fault latch holds: the cause, and the opcode (`decodeError`) or the data address (`boundsError`)
(10_state.md R30). -/
structure FaultRecord where
  cause : FaultCause
  info : Byte
  deriving DecidableEq, Repr

/-- The state: the six elements of 10_state.md R20, and the parameters of the run (00_scope.md R6), which no step writes.
DESIGN CHOICE (log 1): the spec says the parameters are no state; they stand here so that `step` can read them. Safe: a claim
about every state is a claim about every configuration. -/
structure State where
  mem : Memory
  regs : RegFile
  pc : Byte
  zf : Bool
  sf : Bool
  fault : Option FaultRecord
  cfg : Config
  deriving DecidableEq, Repr

/-- Why no step exists (44_execution_step.md R141). Raised by `haltTest` alone, never by an instruction. Safe: the spec
says there is no next state. The machine's own faults, DecodeError and BoundsError, are no such stop: they are next states
with the latch set. -/
inductive Fault
  /-- The normal end of a run, no error: `pc` is 10 or more (44_execution_step.md R144). Safe. -/
  | halted
  /-- The fault latch is set: only reset leaves this state (60_exceptions.md R187). Safe. -/
  | faulted
  deriving DecidableEq, Repr

/-- The model refuses nothing; the constructor is the host's. -/
inductive Refusal
  /-- An instruction without a meaning. No arm of `exec` raises it. Safe. -/
  | notModelled (mnemonic : String)
  deriving DecidableEq, Repr

/-- Reset (70_reset_and_hazards.md R210) with a configuration and a program file: registers `REG_RESET` (10_state.md R22), `pc`
0 (R26), flags clear (R28), no fault (R30), memory the file's image (R29, R212). -/
def State.resetWith (c : Config) (file : List Byte) : State :=
  { mem := Memory.ofFile file
    regs := c.regReset
    pc := 0x00#8
    zf := false
    sf := false
    fault := none
    cfg := c }

/-- Reset with every parameter at its default and the zero-length program file, whose image is all zero
(70_reset_and_hazards.md R212). -/
def State.reset : State := State.resetWith defaultConfig []

end Sys2Proof.Machine
end

