-- ==== Sys2Proof/Machine/Operands.lean ====
section
/-! DEFINITION. Every operand form: a register, a nibble of a register with the 4-bit immediate, and a data address in a
register (41_load_store.md: register indirect, with no offset and no update). -/

namespace Sys2Proof.Machine

/-- A register of the file. The index is 2 bits, so there is no range check (10_state.md R21). -/
def getReg (f : RegFile) (r : Reg) : Byte :=
  match r with
  | .r0 => f.x0
  | .r1 => f.x1
  | .r2 => f.x2
  | .r3 => f.x3

/-- The file with one register replaced. No register is hardwired (10_state.md R21). -/
def setReg (f : RegFile) (r : Reg) (v : Byte) : RegFile :=
  match r with
  | .r0 => { f with x0 := v }
  | .r1 => { f with x1 := v }
  | .r2 => { f with x2 := v }
  | .r3 => { f with x3 := v }

/-- `x[r]`, the value before the instruction (10_state.md R23). -/
def readReg (s : State) (r : Reg) : Byte := getReg s.regs r

/-- The low nibble replaced, the high nibble kept (40_move.md R90). -/
def mergeLow (old : Byte) (imm4 : Nibble) : Byte := (old &&& 0xF0#8) ||| imm4.setWidth 8

/-- The high nibble replaced, the low nibble kept (40_move.md R91). -/
def mergeHigh (old : Byte) (imm4 : Nibble) : Byte := (old &&& 0x0F#8) ||| (imm4.setWidth 8 <<< 4)

/-- `ea(addr)` (20_memory.md R45): the cell a data address names, or none where it raises `BoundsError(addr)`. -/
def effectiveAddress (p : OobPolicy) (addr : Byte) : Option Nat :=
  if addr.toNat < memSize then some addr.toNat
  else match p with
    | .wrap => some (addr.toNat % memSize)
    | .fault => none

/-- The data address an instruction presents: LD's own register, register 0 for ST always, none for the others
(20_memory.md R42). -/
def dataAddress (i : Instr) (s : State) : Option Byte :=
  match i with
  | .ld r => some (readReg s r)
  | .st _ => some (readReg s .r0)
  | .movl _ _ => none
  | .movh _ _ => none
  | .b _ => none
  | .beq _ => none
  | .bne _ => none
  | .bge _ => none
  | .add _ _ => none
  | .sub _ _ => none
  | .and _ _ => none
  | .or _ _ => none
  | .illegal _ => none

end Sys2Proof.Machine
end

