-- ==== Sys2Proof/Machine/Ops.lean ====
section
/-! DEFINITION. The named operations over the state: register, flag, memory and pc writes, the fetch, the halt test, the
raising of a fault, and reset as the host's event. -/

namespace Sys2Proof.Machine

/-- `x[r] <- v` (00_scope.md R10). -/
def writeReg (r : Reg) (v : Byte) (s : State) : State := { s with regs := setReg s.regs r v }

/-- Both flags, from the 8-bit result (43_alu.md R121). -/
def writeFlags (result : Byte) (s : State) : State :=
  { s with zf := zeroFlag result, sf := signFlag result }

/-- `mem[a] <- v` at a physical address (00_scope.md R10). -/
def writeMem (a : Nat) (v : Byte) (s : State) : State := { s with mem := s.mem.write a v }

/-- `pc <- t` (00_scope.md R10). -/
def writePc (t : Byte) (s : State) : State := { s with pc := t }

/-- The step's increment, `pc <- pc +_8 1` (44_execution_step.md R143). -/
def advance (s : State) : State := writePc (s.pc + 1#8) s

/-- The pc of a branch: the whole register if taken, with no check and no masking, else the increment (42_branch.md R110,
R115, 44_execution_step.md R143). `taken` is the truth of the condition. -/
def branchTo (taken : Bool) (r : Reg) (s : State) : State :=
  if taken then writePc (readReg s r) s else advance s

/-- Taking a fault, the whole of fault entry (60_exceptions.md R186): the latch is set and nothing else changes, so
that `pc` stays on the failing instruction (44_execution_step.md R147). There is no return from a fault (60_exceptions.md
R187); the only way out is `hostReset`. -/
def raise (cause : FaultCause) (info : Byte) (s : State) : State :=
  { s with fault := some { cause := cause, info := info } }

/-- Reset by the host (70_reset_and_hazards.md R210): a new run, with nothing carried over from any state. -/
def hostReset (c : Config) (file : List Byte) (_s : State) : State := State.resetWith c file

/-- A data access at a register's value (20_memory.md R45): with the cell's address the access is made and pc advances; an
address that names no cell raises `BoundsError` and does nothing else (60_exceptions.md R183). -/
def withDataAccess (addr : Byte) (access : Nat → State → State) (s : State) : State :=
  match effectiveAddress s.cfg.oobPolicy addr with
  | some a => advance (access a s)
  | none => raise .boundsError addr s

/-- `Fetch(pc) = mem[pc]` (20_memory.md R43). -/
def fetch (s : State) : Byte := s.mem.read s.pc.toNat

/-- The instruction at the program counter (44_execution_step.md R140). -/
def decodeNext (s : State) : Instr := decodeWith s.cfg.codes (fetch s)

/-- The test before every fetch (44_execution_step.md R141): none where a step exists, else why there is none. -/
def haltTest (s : State) : Option Fault :=
  if s.fault.isSome then some .faulted
  else if memSize ≤ s.pc.toNat then some .halted
  else none

end Sys2Proof.Machine
end

