-- ==== Sys2Proof/Machine/Alu.lean ====
section
/-! DEFINITION. The ALU and ADD, SUB, AND, OR (43_alu.md). No ALU instruction accesses memory, reads a flag or can fault
(R120). -/

namespace Sys2Proof.Machine

/-- The ALU (43_alu.md R126) with `a = x[rd]`, `b = x[rs]` (R120). The minuend of SUB is `a` under
`rd_minus_rs` and `b` under `rs_minus_rd` (R123). -/
def alu (order : SubOrder) (o : AluOp) (a b : Byte) : Byte :=
  match o with
  | .add => a + b
  | .sub => match order with
    | .rdMinusRs => a - b
    | .rsMinusRd => b - a
  | .and => a &&& b
  | .or => a ||| b

/-- The common form of 43_alu.md R120: both old values are read, both flags and the destination are written. -/
def aluStep (o : AluOp) (rd rs : Reg) (s : State) : State :=
  let result := alu s.cfg.subOrder o (readReg s rd) (readReg s rs)
  advance (writeReg rd result (writeFlags result s))

/-- ADD `rd, rs` (43_alu.md R122). -/
def execAdd (rd rs : Reg) (s : State) : Host.Outcome State Fault Refusal := .next (aluStep .add rd rs s)

/-- SUB `rd, rs` (43_alu.md R123). -/
def execSub (rd rs : Reg) (s : State) : Host.Outcome State Fault Refusal := .next (aluStep .sub rd rs s)

/-- AND `rd, rs` (43_alu.md R124). -/
def execAnd (rd rs : Reg) (s : State) : Host.Outcome State Fault Refusal := .next (aluStep .and rd rs s)

/-- OR `rd, rs` (43_alu.md R125). -/
def execOr (rd rs : Reg) (s : State) : Host.Outcome State Fault Refusal := .next (aluStep .or rd rs s)

end Sys2Proof.Machine
end

