-- ==== Sys2Proof/Machine/Branch.lean ====
section
/-! DEFINITION. B, BEQ, BNE, BGE (42_branch.md): register-indirect absolute branches that write `pc` alone and cannot
fault (R110). -/

namespace Sys2Proof.Machine

/-- B `r` (42_branch.md R111). -/
def execB (r : Reg) (s : State) : Host.Outcome State Fault Refusal :=
  .next (branchTo (condHolds .always s.zf s.sf) r s)

/-- BEQ `r` (42_branch.md R112). -/
def execBeq (r : Reg) (s : State) : Host.Outcome State Fault Refusal :=
  .next (branchTo (condHolds .eq s.zf s.sf) r s)

/-- BNE `r` (42_branch.md R113). -/
def execBne (r : Reg) (s : State) : Host.Outcome State Fault Refusal :=
  .next (branchTo (condHolds .ne s.zf s.sf) r s)

/-- BGE `r` (42_branch.md R114). -/
def execBge (r : Reg) (s : State) : Host.Outcome State Fault Refusal :=
  .next (branchTo (condHolds .ge s.zf s.sf) r s)

end Sys2Proof.Machine
end

