-- ==== Sys2Proof/Machine/Illegal.lean ====
section
/-! DEFINITION. The illegal range 0xB0 to 0xBF (60_exceptions.md R182). -/

namespace Sys2Proof.Machine

/-- Executing an illegal opcode takes `DecodeError`, with the opcode as information; it is never a no-operation
(30_encoding.md R71, 60_exceptions.md R182). -/
def execIllegal (low : Nibble) (s : State) : Host.Outcome State Fault Refusal :=
  .next (raise .decodeError (illegalOpcode low) s)

end Sys2Proof.Machine
end

