-- ==== Sys2Proof/Machine/LoadStore.lean ====
section
/-! DEFINITION. LD and ST (41_load_store.md). No flag is touched (R100, R101). -/

namespace Sys2Proof.Machine

/-- LD `r` (41_load_store.md R100): the operand register is the address and the destination. -/
def execLd (r : Reg) (s : State) : Host.Outcome State Fault Refusal :=
  .next (withDataAccess (readReg s r) (fun a t => writeReg r (t.mem.read a) t) s)

/-- ST `r` (41_load_store.md R101): the address is register 0 always, the value the operand register. -/
def execSt (r : Reg) (s : State) : Host.Outcome State Fault Refusal :=
  .next (withDataAccess (readReg s .r0) (fun a t => writeMem a (readReg t r) t) s)

end Sys2Proof.Machine
end

