-- ==== Sys2Proof/Machine/Move.lean ====
section
/-! DEFINITION. MOVL and MOVH (40_move.md). Neither touches a flag or memory, and neither can fault. -/

namespace Sys2Proof.Machine

/-- MOVL `r, imm4` (40_move.md R90). -/
def execMovl (r : Reg) (imm4 : Nibble) (s : State) : Host.Outcome State Fault Refusal :=
  .next (advance (writeReg r (mergeLow (readReg s r) imm4) s))

/-- MOVH `r, imm4` (40_move.md R91). -/
def execMovh (r : Reg) (imm4 : Nibble) (s : State) : Host.Outcome State Fault Refusal :=
  .next (advance (writeReg r (mergeHigh (readReg s r) imm4) s))

end Sys2Proof.Machine
end

