-- ==== Sys2Proof/Machine/Dispatch.lean ====
section
/-! DEFINITION. The execute and advance phases of a step (44_execution_step.md R140, R143): one arm per instruction. -/

namespace Sys2Proof.Machine

def exec (i : Instr) (s : State) : Host.Outcome State Fault Refusal :=
  match i with
  | .movl r imm4 => Sys2Proof.Machine.execMovl r imm4 s
  | .movh r imm4 => Sys2Proof.Machine.execMovh r imm4 s
  | .ld r => Sys2Proof.Machine.execLd r s
  | .st r => Sys2Proof.Machine.execSt r s
  | .b r => Sys2Proof.Machine.execB r s
  | .beq r => Sys2Proof.Machine.execBeq r s
  | .bne r => Sys2Proof.Machine.execBne r s
  | .bge r => Sys2Proof.Machine.execBge r s
  | .add rd rs => Sys2Proof.Machine.execAdd rd rs s
  | .sub rd rs => Sys2Proof.Machine.execSub rd rs s
  | .and rd rs => Sys2Proof.Machine.execAnd rd rs s
  | .or rd rs => Sys2Proof.Machine.execOr rd rs s
  | .illegal low => Sys2Proof.Machine.execIllegal low s

end Sys2Proof.Machine
end

