-- ==== Sys2Proof/Machine/Step.lean ====
section
/-! DEFINITION. The step function (44_execution_step.md R140). -/

namespace Sys2Proof.Machine

/-- One step: the halt test, the fetch, the decode, the execution with its advance (44_execution_step.md R140, R142). Where
no step exists the answer is the reason (R141). The host's pause changes no state (60_exceptions.md R200) and so is no
part of it; Machine/Debug.lean models it. -/
def step (s : State) : Host.Outcome State Fault Refusal :=
  match haltTest s with
  | some why => .fault why
  | none => exec (decodeNext s) s

/-- `s` with an instruction of one byte stored where the next step fetches, at `mem[pc]` (20_memory.md R43). In a halted state
nothing is fetched and nothing is stored. It stands for the host's load of a program (70_reset_and_hazards.md R212, log 8). -/
def State.withFetchWord (s : State) (nbits w : Nat) : State :=
  match wordBytes nbits w with
  | [] => s
  | op :: _ => if s.pc.toNat < memSize then writeMem s.pc.toNat op s else s

end Sys2Proof.Machine
end

