-- ==== Sys2Proof/Machine/Datapath.lean ====
section
/-! DEFINITION. The structural view of 45_block_interfaces.md: the decoder's outputs (R161), the control signals of every
instruction (R162), the register ports (R163), the ALU (R164), the program-counter logic (R165) and the memory interface
(R166), put together as a second design of one step. The step function of 44_execution_step.md R140 governs (D14); that
the two are the same is an obligation. -/

namespace Sys2Proof.Machine

/-- The decoder's `kind` output (45_block_interfaces.md R161). -/
inductive Kind
  | move | load | store | branch | alu | illegal
  deriving DecidableEq, Repr

/-- The decoder's outputs (45_block_interfaces.md R161). `modeHigh` is `mode`: false is LOW, true is HIGH. -/
structure DecoderOut where
  kind : Kind
  modeHigh : Bool
  rM : BitVec 2
  imm4 : Nibble
  rS : BitVec 2
  cond : BitVec 2
  aop : BitVec 2
  rs : BitVec 2
  rd : BitVec 2
  illegal : Bool
  deriving DecidableEq, Repr

/-- The decoder as signals, straight from the opcode's bits in LSB-0 numbering (45_block_interfaces.md R161). -/
def decoderOut (op : Byte) : DecoderOut :=
  let p4 := op.extractLsb' 4 4
  { kind :=
      if op.getLsbD 7 = false then .move
      else if op.getLsbD 6 = true then .alu
      else if p4 = 0b1000#4 then .load
      else if p4 = 0b1001#4 then .store
      else if p4 = 0b1010#4 then .branch
      else .illegal
    modeHigh := op.getLsbD 6
    rM := op.extractLsb' 4 2
    imm4 := op.extractLsb' 0 4
    rS := op.extractLsb' 0 2
    cond := op.extractLsb' 2 2
    aop := op.extractLsb' 4 2
    rs := op.extractLsb' 2 2
    rd := op.extractLsb' 0 2
    illegal := p4 == 0b1011#4 }

/-- The sources of `rf_wdata` (45_block_interfaces.md R162). -/
inductive WriteData
  | moveLow | moveHigh | loaded | aluResult
  deriving DecidableEq, Repr

/-- The values of `pc_sel` (45_block_interfaces.md R162). -/
inductive PcSel
  | inc | target | hold
  deriving DecidableEq, Repr

/-- A row of the control table (45_block_interfaces.md R162). A dash of the table is none. `rfWrite` holds `rf_waddr` and the
source of `rf_wdata`, and `rf_we` is 1 exactly where it is some. -/
structure Controls where
  portA : Option (BitVec 2)
  portB : Option (BitVec 2)
  rfWrite : Option (BitVec 2 × WriteData)
  memRe : Bool
  memWe : Bool
  flagsWe : Bool
  pcSel : PcSel
  deriving DecidableEq, Repr

/-- The control table (45_block_interfaces.md R162), in its order of rows. `target` in a branch's row means `A` if `holds`,
else the increment. -/
def controls (d : DecoderOut) : Controls :=
  match d.kind with
  | .move =>
    { portA := some d.rM, portB := none, rfWrite := some (d.rM, if d.modeHigh then .moveHigh else .moveLow)
      memRe := false, memWe := false, flagsWe := false, pcSel := .inc }
  | .load =>
    { portA := some d.rS, portB := none, rfWrite := some (d.rS, .loaded)
      memRe := true, memWe := false, flagsWe := false, pcSel := .inc }
  | .store =>
    { portA := some 0b00#2, portB := some d.rS, rfWrite := none
      memRe := false, memWe := true, flagsWe := false, pcSel := .inc }
  | .branch =>
    { portA := some d.rS, portB := none, rfWrite := none
      memRe := false, memWe := false, flagsWe := false, pcSel := .target }
  | .alu =>
    { portA := some d.rd, portB := some d.rs, rfWrite := some (d.rd, .aluResult)
      memRe := false, memWe := false, flagsWe := true, pcSel := .inc }
  | .illegal =>
    { portA := none, portB := none, rfWrite := none
      memRe := false, memWe := false, flagsWe := false, pcSel := .hold }

/-- A combinational read port (45_block_interfaces.md R163). A port no row uses shows 0, which no write depends on. -/
def portValue (f : RegFile) (port : Option (BitVec 2)) : Byte :=
  match port with
  | some index => getReg f (regOfBits index)
  | none => 0x00#8

/-- `holds` (45_block_interfaces.md R165), on the condition the code stands for. -/
def holdsSignal (c : Cond) (zf sf : Bool) : Bool :=
  c == .always || (c == .eq && zf) || (c == .ne && !zf) || (c == .ge && !sf)

/-- The selector of `rf_wdata` (45_block_interfaces.md R162). -/
def selectData (w : WriteData) (a : Byte) (imm4 : Nibble) (loaded result : Byte) : Byte :=
  match w with
  | .moveLow => a.extractLsb' 4 4 ++ imm4
  | .moveHigh => imm4 ++ a.extractLsb' 0 4
  | .loaded => loaded
  | .aluResult => result

/-- One step of the structural design. Every write enable is 0 on a fault, and only the latch is set
(45_block_interfaces.md R162). -/
def datapathStep (s : State) : Host.Outcome State Fault Refusal :=
  if s.fault ≠ none then .fault .faulted
  else if memSize ≤ s.pc.toNat then .fault .halted
  else
    let op := s.mem.read s.pc.toNat
    let d := decoderOut op
    let c := controls d
    let a := portValue s.regs c.portA
    let b := portValue s.regs c.portB
    let cell := effectiveAddress s.cfg.oobPolicy a
    if d.illegal then .next { s with fault := some { cause := .decodeError, info := op } }
    else if (c.memRe || c.memWe) && cell.isNone then
      .next { s with fault := some { cause := .boundsError, info := a } }
    else
      let physical := cell.getD 0
      let loaded := s.mem.read physical
      let result := alu s.cfg.subOrder (aluOpOf s.cfg.codes.alu d.aop) a b
      let taken := d.kind == .branch && holdsSignal (condOf s.cfg.codes.cond d.cond) s.zf s.sf
      .next
        { s with
          regs := match c.rfWrite with
            | some (index, w) => setReg s.regs (regOfBits index) (selectData w a d.imm4 loaded result)
            | none => s.regs
          mem := if c.memWe then s.mem.write physical b else s.mem
          zf := if c.flagsWe then result == 0x00#8 else s.zf
          sf := if c.flagsWe then result.getLsbD 7 else s.sf
          pc := match c.pcSel with
            | .inc => s.pc + 1#8
            | .target => if taken then a else s.pc + 1#8
            | .hold => s.pc }

end Sys2Proof.Machine
end

