-- ==== Sys2Proof/Machine/Debug.lean ====
section
/-! DEFINITION. What the host sees and does beside the step: the outputs of 45_block_interfaces.md R167, and the debug
pause of 60_exceptions.md R200. The pause reads the machine and writes nothing; the texts of commands and replies are not
in the spec (log 15), so they are constructors here. -/

namespace Sys2Proof.Machine

/-- The output `halted` (45_block_interfaces.md R165). -/
def halted (s : State) : Bool := s.fault.isNone && decide (memSize ≤ s.pc.toNat)

/-- The output `faulted` (45_block_interfaces.md R167). -/
def faulted (s : State) : Bool := s.fault.isSome

/-- The cause code the host reads: 0 none, 1 DecodeError, 2 BoundsError (60_exceptions.md R181). -/
def faultCode (s : State) : Nat :=
  match s.fault with
  | none => 0
  | some f => match f.cause with
    | .decodeError => 1
    | .boundsError => 2

/-- `fault.info`, where a fault is latched (60_exceptions.md R181). -/
def faultInfo (s : State) : Option Byte := s.fault.map FaultRecord.info

/-- A line the console reads: the fixed command table of 60_exceptions.md R200, or anything else. -/
inductive DebugCommand
  | help
  | step
  | printRegisters
  | printRegister (r : Reg)
  | printMemory
  | printCell (a : Fin memSize)
  | printInstruction
  | quit
  | unrecognized
  deriving DecidableEq, Repr

/-- What a command prints, without its text (log 15). -/
inductive DebugReply
  | help
  | registers (values : List Byte)
  | register (value : Byte)
  | memory (values : List Byte)
  | cell (value : Byte)
  | instruction (i : Instr)
  deriving DecidableEq, Repr

/-- What becomes of one step under the console: it ran, with the lines still unread, or the host aborted the run, of which
the spec says nothing more (60_exceptions.md R200, 93_implementation_defined.md U16). -/
inductive DebugOutcome
  | ran (o : Host.Outcome State Fault Refusal) (replies : List DebugReply) (unread : List DebugCommand)
  | aborted (replies : List DebugReply)
  deriving Repr

/-- Where a step pauses: with DEBUG_EN set, after a successful decode; never before a decode failure and never where no step
exists (44_execution_step.md R142, 60_exceptions.md R182). -/
def pausePoint (s : State) : Option Instr :=
  match s.cfg.debugEn, haltTest s, decodeNext s with
  | false, _, _ => none
  | true, some _, _ => none
  | true, none, .illegal _ => none
  | true, none, i => some i

/-- The reply to a command at a pause before instruction `i`. The whole container is printed without a suffix, one register
or cell with one (60_exceptions.md R200). -/
def debugReply (s : State) (i : Instr) (c : DebugCommand) : List DebugReply :=
  match c with
  | .help => [.help]
  | .printRegisters => [.registers [s.regs.x0, s.regs.x1, s.regs.x2, s.regs.x3]]
  | .printRegister r => [.register (readReg s r)]
  | .printMemory => [.memory ((List.range memSize).map s.mem.read)]
  | .printCell a => [.cell (s.mem.read a)]
  | .printInstruction => [.instruction i]
  | .step => []
  | .quit => []
  | .unrecognized => []

/-- The console at a pause: it reads lines until a step command releases the machine; `quit` and the end of the input
abort the run; unrecognised lines are ignored (60_exceptions.md R200). -/
def console (s : State) (i : Instr) (replies : List DebugReply) : List DebugCommand → DebugOutcome
  | [] => .aborted replies
  | .quit :: _ => .aborted replies
  | .step :: unread => .ran (step s) replies unread
  | c :: unread => console s i (replies ++ debugReply s i c) unread

/-- One step with the host's console attached (44_execution_step.md R142). -/
def debugStep (s : State) (lines : List DebugCommand) : DebugOutcome :=
  match pausePoint s with
  | none => .ran (step s) [] lines
  | some i => console s i [] lines

/-- The machine with the host's two booleans set otherwise (60_exceptions.md R200, R201). -/
def withHostFlags (debugEn logEn : Bool) (s : State) : State :=
  { s with cfg := { s.cfg with debugEn := debugEn, logEn := logEn } }

end Sys2Proof.Machine
end

