-- ==== Sys2Proof/Safety.lean ====
section
/-! DEFINITION. The terms the statements use: what a fault record must say, the invariant, which register an instruction
writes, and the frames. -/

namespace Sys2Proof.Safety

open Sys2Proof.Machine

/-- The latch tells the truth about the state it was set in, which faults leave as it was (44_execution_step.md R147,
60_exceptions.md R181): `pc` is on an instruction, and that instruction raises the recorded fault with the recorded
information. -/
def latchTruthful (s : State) : Bool :=
  match s.fault with
  | none => true
  | some f => decide (s.pc.toNat < memSize) && match f.cause with
    | .decodeError => f.info == fetch s && f.info.extractLsb' 4 4 == 0b1011#4
    | .boundsError => s.cfg.oobPolicy == .fault && decide (memSize ≤ f.info.toNat) &&
        dataAddress (decodeNext s) s == some f.info

/-- The invariant: memory in canonical form, code tables that are bijections, flags that are not both set (43_alu.md R121), a
truthful latch. -/
abbrev Inv (s : State) : Prop :=
  s.mem.wf = true ∧ s.cfg.wf = true ∧ ¬ (s.zf = true ∧ s.sf = true) ∧ latchTruthful s = true

/-- The one register an instruction writes, if any (44_execution_step.md R148). -/
def destination (i : Instr) : Option Reg :=
  match i with
  | .movl r _ => some r
  | .movh r _ => some r
  | .ld r => some r
  | .add rd _ => some rd
  | .sub rd _ => some rd
  | .and rd _ => some rd
  | .or rd _ => some rd
  | .st _ => none
  | .b _ => none
  | .beq _ => none
  | .bne _ => none
  | .bge _ => none
  | .illegal _ => none

/-- Whether an instruction is one of ADD, SUB, AND, OR. -/
def isAlu (i : Instr) : Bool :=
  match i with
  | .add _ _ => true
  | .sub _ _ => true
  | .and _ _ => true
  | .or _ _ => true
  | .movl _ _ => false
  | .movh _ _ => false
  | .ld _ => false
  | .st _ => false
  | .b _ => false
  | .beq _ => false
  | .bne _ => false
  | .bge _ => false
  | .illegal _ => false

/-- The target of a branch that is taken in `s` (42_branch.md R110 to R114); none for a branch not taken and for every other
instruction. -/
def takenTarget (i : Instr) (s : State) : Option Byte :=
  match i with
  | .b r => some (readReg s r)
  | .beq r => if s.zf = true then some (readReg s r) else none
  | .bne r => if s.zf = false then some (readReg s r) else none
  | .bge r => if s.sf = false then some (readReg s r) else none
  | .movl _ _ => none
  | .movh _ _ => none
  | .ld _ => none
  | .st _ => none
  | .add _ _ => none
  | .sub _ _ => none
  | .and _ _ => none
  | .or _ _ => none
  | .illegal _ => none

/-- Every register but `r` reads as before. -/
abbrev regsKeptBut (r : Reg) (s t : State) : Prop := ∀ q, q ≠ r → readReg t q = readReg s q

/-- Every register reads as before. -/
abbrev regsKept (s t : State) : Prop := ∀ q, readReg t q = readReg s q

/-- Every cell reads as before. -/
abbrev memKept (s t : State) : Prop := ∀ a, t.mem.read a = s.mem.read a

/-- Both flags are as before. -/
abbrev flagsKept (s t : State) : Prop := t.zf = s.zf ∧ t.sf = s.sf

/-- The fault latch and the parameters are as before. -/
abbrev restKept (s t : State) : Prop := t.fault = s.fault ∧ t.cfg = s.cfg

/-- A fault was taken precisely (44_execution_step.md R147): the latch holds the record and all else is as before. -/
abbrev faultTaken (cause : FaultCause) (info : Byte) (s t : State) : Prop :=
  t.fault = some ⟨cause, info⟩ ∧ t.pc = s.pc ∧ regsKept s t ∧ memKept s t ∧ flagsKept s t ∧ t.cfg = s.cfg

end Sys2Proof.Safety
end

