-- ==== Sys2Proof/Certificates/Slice0/Obligations.lean ====
section
/-! DEFINITION. The statements for the provers. A statement marked "the spec's decision D<n>" rests on a choice that
spec/92_eei_decisions.md made and the model follows (log entries of notes/assumptions named beside it). -/

open Sys2Proof Sys2Proof.Machine Sys2Proof.Safety

/-! ### Encoding -/

/-- Decoding an encoded instruction gives it back, for every instruction, every operand and every pair of code tables that are
bijections (30_encoding.md, formats and decoder). -/
def Obligations.DecodeOfEncodeIsIdentity : Prop :=
  ∀ (k : Codes) (i : Instr), k.wf = true → i.wf = true → decodeWith k (encodeWith k i) = i

/-- Encoding a decoded opcode gives the opcode back, but for the ignored bits `op[3:2]` of LD and ST, which come back 00.
Rests on the spec's decision D9 (log 12). -/
def Obligations.EncodeOfDecodeIsCanonicalOpcode : Prop :=
  ∀ (k : Codes) (op : Byte), k.wf = true →
    encodeWith k (decodeWith k op) =
      if op.extractLsb' 4 4 = 0b1000#4 ∨ op.extractLsb' 4 4 = 0b1001#4 then op &&& 0xF3#8 else op

/-- Every opcode belongs to exactly one row of the opcode table, the row of the instruction it decodes to, under the default
code tables. Rests on the spec's decisions D4, D5, D13, and for the LD and ST opcodes with `op[3:2]` not 00 on D9
(logs 5, 6, 12, 17). -/
def Obligations.EveryOpcodeHasOneTableRow : Prop :=
  ∀ op : Byte, (rowsOf op).map OpcodeRow.mnemonic = [mnemonic (decode op)]

/-- Opcodes written out from the encoding tables decode as 95_test_vectors.md S5 and V1 say, one of every row. Rests on the spec's
decisions D4, D5, and the clauses on 0x8C and 0x96, whose ignored bits are set, on D9 (logs 5, 6, 12). -/
def Obligations.WrittenOutOpcodesDecode : Prop :=
  decode 0b00010011#8 = .movl .r1 3#4 ∧ decode 0b01011010#8 = .movh .r1 10#4 ∧
  decode 0b10000000#8 = .ld .r0 ∧ decode 0b10010000#8 = .st .r0 ∧
  decode 0b10100011#8 = .b .r3 ∧ decode 0b10100111#8 = .beq .r3 ∧
  decode 0b10101000#8 = .bne .r0 ∧ decode 0b10101111#8 = .bge .r3 ∧
  decode 0b11000001#8 = .add .r1 .r0 ∧ decode 0b11011001#8 = .sub .r1 .r2 ∧
  decode 0b11100110#8 = .and .r2 .r1 ∧ decode 0b11111001#8 = .or .r1 .r2 ∧
  decode 0b10110111#8 = .illegal 7#4 ∧
  decodeTableWord 8 0x8C = some (.ld .r0) ∧ decodeTableWord 8 0x96 = some (.st .r2)

/-! ### The step -/

/-- Where a step exists and the byte at `pc` decodes to `i`, the step is `exec i`, with nothing added: `exec` makes the advance of
`pc` itself (44_execution_step.md, the step function). -/
def Obligations.StepRunsDecodedInstruction : Prop :=
  ∀ (s : State) (i : Instr), s.fault = none → s.pc.toNat < 10 → i.wf = true →
    decodeWith s.cfg.codes (s.mem.read s.pc.toNat) = i → step s = exec i s

/-- 44_execution_step.md R141, in the words of `step` and of the host's runs: a step exists exactly when no fault is latched and `pc`
is below 10; the first step after reset always exists; where no step exists the state never changes again. -/
def Obligations.StepExistsExactlyWhileRunning : Prop :=
  (∀ s : State, (∃ t, step s = .next t) ↔ s.fault = none ∧ s.pc.toNat < 10) ∧
  (∀ (c : Config) (file : List Byte), ∃ t, step (State.resetWith c file) = .next t) ∧
  (∀ s : State, (¬ ∃ t, step s = .next t) →
    ∀ (k : Nat) (t : State), Host.Core.run Sys2Proof.core k s = .next t → t = s)

/-- The outputs the host reads tell which stop a step meets: `halted` and `faulted` are never both on, each stands for its stop,
and the cause code is 0 exactly without a fault, 1 for DecodeError, 2 for BoundsError. Rests on the spec's decisions D11, D12, D14
(logs 10, 13, 19). -/
def Obligations.HostOutputsNameTheStop : Prop :=
  ∀ s : State,
    (halted s = true ↔ step s = .fault .halted) ∧ (faulted s = true ↔ step s = .fault .faulted) ∧
    ¬ (halted s = true ∧ faulted s = true) ∧
    (faultCode s = 0 ↔ s.fault = none) ∧
    (faultCode s = 1 ↔ ∃ v, s.fault = some ⟨.decodeError, v⟩) ∧
    (faultCode s = 2 ↔ ∃ v, s.fault = some ⟨.boundsError, v⟩) ∧
    (∀ v, faultInfo s = some v ↔ ∃ c, s.fault = some ⟨c, v⟩)

/-! ### Move -/

/-- 40_move.md R90: MOVL is encoded `00rriiii`, replaces the low nibble of its register, keeps the high one, changes nothing else
and advances `pc`. -/
def Obligations.MovlReplacesLowNibble : Prop :=
  ∀ (r : Reg) (imm4 : Nibble),
    (∀ k : Codes, decodeWith k (0b00#2 ++ regBits r ++ imm4) = .movl r imm4) ∧
    ∀ s : State, ∃ t, exec (.movl r imm4) s = .next t ∧
      readReg t r = (readReg s r).extractLsb' 4 4 ++ imm4 ∧ t.pc = s.pc + 1#8 ∧
      regsKeptBut r s t ∧ memKept s t ∧ flagsKept s t ∧ restKept s t

/-- 40_move.md R91: MOVH is encoded `01rriiii`, replaces the high nibble of its register, keeps the low one, changes nothing else
and advances `pc`. -/
def Obligations.MovhReplacesHighNibble : Prop :=
  ∀ (r : Reg) (imm4 : Nibble),
    (∀ k : Codes, decodeWith k (0b01#2 ++ regBits r ++ imm4) = .movh r imm4) ∧
    ∀ s : State, ∃ t, exec (.movh r imm4) s = .next t ∧
      readReg t r = imm4 ++ (readReg s r).extractLsb' 0 4 ∧ t.pc = s.pc + 1#8 ∧
      regsKeptBut r s t ∧ memKept s t ∧ flagsKept s t ∧ restKept s t

/-- A Move pair in either order leaves the whole byte in its register, whatever was there before, and changes no other register,
no flag and no memory (40_move.md R93, whose second order the spec derives). -/
def Obligations.MovePairBuildsAnyByte : Prop :=
  ∀ (r : Reg) (lo hi : Nibble) (s : State),
    (∃ t u, exec (.movl r lo) s = .next t ∧ exec (.movh r hi) t = .next u ∧ readReg u r = hi ++ lo ∧
      regsKeptBut r s u ∧ memKept s u ∧ flagsKept s u ∧ restKept s u) ∧
    (∃ t u, exec (.movh r hi) s = .next t ∧ exec (.movl r lo) t = .next u ∧ readReg u r = hi ++ lo ∧
      regsKeptBut r s u ∧ memKept s u ∧ flagsKept s u ∧ restKept s u)

/-! ### Load and Store -/

/-- LD, where its address is admitted (below 10, or any address under `wrap`), puts the cell at the address mod 10 into its own
register, changes nothing else and advances `pc`. Rests on the spec's decisions D1, D2 (logs 2, 3). -/
def Obligations.LdReplacesRegisterByCell : Prop :=
  ∀ (r : Reg) (s : State), s.cfg.oobPolicy = .wrap ∨ (readReg s r).toNat < 10 →
    ∃ t, exec (.ld r) s = .next t ∧
      readReg t r = s.mem.read ((readReg s r).toNat % 10) ∧ t.pc = s.pc + 1#8 ∧
      regsKeptBut r s t ∧ memKept s t ∧ flagsKept s t ∧ restKept s t

/-- ST, where the address in register 0 is admitted, stores its register in the cell `effectiveAddress` gives for it, which is the
address mod 10; every other cell, every register and both flags are kept and `pc` advances. Rests on the spec's decision D1
(log 2). -/
def Obligations.StStoresThroughRegisterZero : Prop :=
  ∀ (r : Reg) (s : State), s.cfg.oobPolicy = .wrap ∨ (readReg s .r0).toNat < 10 →
    ∃ t a, exec (.st r) s = .next t ∧
      effectiveAddress s.cfg.oobPolicy (readReg s .r0) = some a ∧ a = (readReg s .r0).toNat % 10 ∧
      t.mem.read a = readReg s r ∧ (∀ b, b ≠ a → t.mem.read b = s.mem.read b) ∧ t.pc = s.pc + 1#8 ∧
      regsKept s t ∧ flagsKept s t ∧ restKept s t

/-- Under `OOB_POLICY = fault` an LD or ST with an address of 10 or more takes BoundsError with that address and has no other
effect, and no further step exists; under `wrap` no instruction ever takes it. Rests on the spec's decisions D1, D10, D11
(logs 2, 13). -/
def Obligations.OutOfRangeAccessTakesBoundsError : Prop :=
  (∀ (r : Reg) (s : State), s.cfg.oobPolicy = .fault → 10 ≤ (readReg s r).toNat →
    ∃ t, exec (.ld r) s = .next t ∧ faultTaken .boundsError (readReg s r) s t ∧ step t = .fault .faulted) ∧
  (∀ (r : Reg) (s : State), s.cfg.oobPolicy = .fault → 10 ≤ (readReg s .r0).toNat →
    ∃ t, exec (.st r) s = .next t ∧ faultTaken .boundsError (readReg s .r0) s t ∧ step t = .fault .faulted) ∧
  (∀ (i : Instr) (s t : State), s.cfg.oobPolicy = .wrap → s.fault = none → exec i s = .next t →
    ∀ v, t.fault ≠ some ⟨.boundsError, v⟩)

/-- What ST stores through register 0, an LD through any register that names the same cell loads (41_load_store.md R103, which the spec
derives). Rests on the spec's decisions D1, D2 (logs 2, 3). -/
def Obligations.StoreThenLoadRoundTrips : Prop :=
  ∀ (r q : Reg) (s : State) (a : Nat),
    effectiveAddress s.cfg.oobPolicy (readReg s .r0) = some a → effectiveAddress s.cfg.oobPolicy (readReg s q) = some a →
    ∃ t u, exec (.st r) s = .next t ∧ exec (.ld q) t = .next u ∧ readReg u q = readReg s r

/-- A later fetch from the cell an ST wrote decodes the stored byte, whatever was there before (20_memory.md R52, which the spec derives).
Rests on the spec's decisions D1, D17 (logs 2, 23). -/
def Obligations.StoredByteIsTheNextFetch : Prop :=
  ∀ (r : Reg) (s t u : State) (a : Nat),
    exec (.st r) s = .next t → effectiveAddress s.cfg.oobPolicy (readReg s .r0) = some a →
    u.mem = t.mem → u.cfg = t.cfg → u.pc.toNat = a → decodeNext u = decodeWith s.cfg.codes (readReg s r)

/-! ### Branch -/

/-- B writes its whole register to `pc`, whatever the flags are, and changes nothing else. Rests on the spec's decisions D6, D7
(log 11). -/
def Obligations.BranchAlwaysGoesToTarget : Prop :=
  ∀ (r : Reg) (s : State), ∃ t, exec (.b r) s = .next t ∧ t.pc = readReg s r ∧
    regsKept s t ∧ memKept s t ∧ flagsKept s t ∧ restKept s t

/-- BEQ goes to its register's value exactly when the zero flag is set, BNE exactly when it is clear, BGE exactly when the sign
flag is clear; each advances `pc` otherwise and changes nothing else. Rests on the spec's decision D7 (log 11). -/
def Obligations.ConditionalBranchesFollowTheFlags : Prop :=
  ∀ (r : Reg) (s : State),
    (∃ t, exec (.beq r) s = .next t ∧ t.pc = (if s.zf = true then readReg s r else s.pc + 1#8) ∧
      regsKept s t ∧ memKept s t ∧ flagsKept s t ∧ restKept s t) ∧
    (∃ t, exec (.bne r) s = .next t ∧ t.pc = (if s.zf = false then readReg s r else s.pc + 1#8) ∧
      regsKept s t ∧ memKept s t ∧ flagsKept s t ∧ restKept s t) ∧
    (∃ t, exec (.bge r) s = .next t ∧ t.pc = (if s.sf = false then readReg s r else s.pc + 1#8) ∧
      regsKept s t ∧ memKept s t ∧ flagsKept s t ∧ restKept s t)

/-- A taken branch to its own address changes nothing at all; a taken branch to 10 or more halts the machine with `pc` at the
target, not reduced (42_branch.md R115, which the spec derives). Rests on the spec's decision D7 (log 11). -/
def Obligations.SelfBranchLoopsAndFarBranchHalts : Prop :=
  ∀ (i : Instr) (s : State) (target : Byte), takenTarget i s = some target →
    (target = s.pc → exec i s = .next s) ∧
    (10 ≤ target.toNat → s.fault = none →
      ∃ t, exec i s = .next t ∧ t.pc = target ∧ t.fault = none ∧ halted t = true ∧ step t = .fault .halted)

/-! ### ALU -/

/-- ADD is encoded `1100ssdd`, leaves the sum of `rd` and `rs` mod 256 in `rd`, writes both flags from it, changes nothing else and
advances `pc`. That the two operands are the destination and the operand register rests on the spec's decision D3 (log 4). -/
def Obligations.AddLeavesSumAndFlags : Prop :=
  ∀ rd rs : Reg,
    (∀ k : Codes, decodeWith k (0b1100#4 ++ regBits rs ++ regBits rd) = .add rd rs) ∧
    ∀ s : State, ∃ t, exec (.add rd rs) s = .next t ∧
      (readReg t rd).toNat = ((readReg s rd).toNat + (readReg s rs).toNat) % 256 ∧
      (t.zf = true ↔ readReg t rd = 0#8) ∧ t.sf = (readReg t rd).getLsbD 7 ∧ t.pc = s.pc + 1#8 ∧
      regsKeptBut rd s t ∧ memKept s t ∧ restKept s t

/-- SUB leaves the difference mod 256 in `rd`, destination minus operand under `rd_minus_rs` and the reverse under `rs_minus_rd`, writes
both flags from it, changes nothing else and advances `pc`. Rests on the spec's decision D3 (log 4). -/
def Obligations.SubLeavesDifferenceAndFlags : Prop :=
  ∀ (rd rs : Reg) (s : State), ∃ t, exec (.sub rd rs) s = .next t ∧
    (s.cfg.subOrder = .rdMinusRs →
      ((readReg t rd).toNat : Int) = (((readReg s rd).toNat : Int) - (readReg s rs).toNat) % 256) ∧
    (s.cfg.subOrder = .rsMinusRd →
      ((readReg t rd).toNat : Int) = (((readReg s rs).toNat : Int) - (readReg s rd).toNat) % 256) ∧
    (t.zf = true ↔ readReg t rd = 0#8) ∧ t.sf = (readReg t rd).getLsbD 7 ∧ t.pc = s.pc + 1#8 ∧
    regsKeptBut rd s t ∧ memKept s t ∧ restKept s t

/-- AND and OR leave the bit-by-bit conjunction and disjunction in `rd`, write both flags from it, change nothing else and advance
`pc`. Rests on the spec's decision D3 for the operands (log 4). -/
def Obligations.AndOrLeaveBitwiseResultAndFlags : Prop :=
  ∀ (rd rs : Reg) (s : State),
    (∃ t, exec (.and rd rs) s = .next t ∧
      (∀ n, n < 8 → (readReg t rd).getLsbD n = ((readReg s rd).getLsbD n && (readReg s rs).getLsbD n)) ∧
      (t.zf = true ↔ readReg t rd = 0#8) ∧ t.sf = (readReg t rd).getLsbD 7 ∧ t.pc = s.pc + 1#8 ∧
      regsKeptBut rd s t ∧ memKept s t ∧ restKept s t) ∧
    (∃ t, exec (.or rd rs) s = .next t ∧
      (∀ n, n < 8 → (readReg t rd).getLsbD n = ((readReg s rd).getLsbD n || (readReg s rs).getLsbD n)) ∧
      (t.zf = true ↔ readReg t rd = 0#8) ∧ t.sf = (readReg t rd).getLsbD 7 ∧ t.pc = s.pc + 1#8 ∧
      regsKeptBut rd s t ∧ memKept s t ∧ restKept s t)

/-- Each of ADD, SUB, AND, OR writes both flags from its result, no other instruction writes either; BEQ and BNE read
the zero flag alone, BGE the sign flag alone, as their conditions, and no other instruction reads a flag: with other flags before
it, an instruction leaves the same state but for the flags it does not write (10_state.md, flags). That B reads no flag rests on
the spec's decision D6, and the value of `pc` after a branch taken or not on D7 (log 11). -/
def Obligations.FlagsWrittenByAluReadByBranches : Prop :=
  (∀ (i : Instr) (s t : State), exec i s = .next t →
    (isAlu i = true → ∃ rd, destination i = some rd ∧ t.zf = (readReg t rd == 0#8) ∧ t.sf = (readReg t rd).getLsbD 7) ∧
    (isAlu i = false → flagsKept s t)) ∧
  (∀ (i : Instr) (s t : State) (z f : Bool), exec i s = .next t → isAlu i = true →
    exec i { s with zf := z, sf := f } = .next t) ∧
  (∀ (i : Instr) (s t : State) (z f : Bool), exec i s = .next t → isAlu i = false →
    (∀ r, i ≠ .beq r ∧ i ≠ .bne r ∧ i ≠ .bge r) →
    exec i { s with zf := z, sf := f } = .next { t with zf := z, sf := f }) ∧
  (∀ (r : Reg) (i : Instr) (s t : State) (f : Bool), i = .beq r ∨ i = .bne r → exec i s = .next t →
    exec i { s with sf := f } = .next { t with sf := f }) ∧
  (∀ (r : Reg) (s t : State) (z : Bool), exec (.bge r) s = .next t →
    exec (.bge r) { s with zf := z } = .next { t with zf := z }) ∧
  (∀ (r : Reg) (s t : State),
    (exec (.beq r) s = .next t → t.pc = if s.zf = true then readReg s r else s.pc + 1#8) ∧
    (exec (.bne r) s = .next t → t.pc = if s.zf = false then readReg s r else s.pc + 1#8) ∧
    (exec (.bge r) s = .next t → t.pc = if s.sf = false then readReg s r else s.pc + 1#8))

/-- What the flags mean after SUB: the zero flag says that the operands were equal; under `rd_minus_rs` the sign flag is clear
exactly when the destination was at least the operand as signed bytes, if the signed difference fits a byte, and exactly when it
was not, if it does not fit (42_branch.md R117, which the spec derives). Rests on the spec's decision D3 (log 4). -/
def Obligations.SubFlagsCompareOperands : Prop :=
  ∀ (rd rs : Reg) (s t : State), exec (.sub rd rs) s = .next t →
    (t.zf = true ↔ readReg s rd = readReg s rs) ∧
    (s.cfg.subOrder = .rdMinusRs →
      let difference := (readReg s rd).toInt - (readReg s rs).toInt
      ((-128 ≤ difference ∧ difference ≤ 127) → (t.sf = false ↔ (readReg s rs).toInt ≤ (readReg s rd).toInt)) ∧
      (¬ (-128 ≤ difference ∧ difference ≤ 127) → (t.sf = false ↔ (readReg s rd).toInt < (readReg s rs).toInt)))

/-! ### Faults -/

/-- The illegal opcodes are exactly those with top nibble 1011; fetching one takes DecodeError with
the opcode and changes nothing else, no further step exists, and no pause precedes it; and only fetching one takes DecodeError. What
the failing step latches and that it
changes nothing else, `pc` included, rests on the spec's decisions D10, D11 (log 13), the constructor on log 17. -/
def Obligations.IllegalOpcodesTakeDecodeError : Prop :=
  (∀ (k : Codes) (op : Byte), (∃ low, decodeWith k op = .illegal low) ↔ op.extractLsb' 4 4 = 0b1011#4) ∧
  (∀ s : State, s.fault = none → s.pc.toNat < 10 → (fetch s).extractLsb' 4 4 = 0b1011#4 →
    pausePoint s = none ∧
    ∃ t, step s = .next t ∧ faultTaken .decodeError (fetch s) s t ∧ step t = .fault .faulted) ∧
  (∀ (s t : State) (v : Byte), step s = .next t → t.fault = some ⟨.decodeError, v⟩ →
    (fetch s).extractLsb' 4 4 = 0b1011#4 ∧ v = fetch s)

/-- The meaning of an illegal opcode completes by taking DecodeError, with the opcode `1011` and its low nibble as information, in
every state; nothing but the latch changes. Rests on the spec's decisions D10, D11 (log 13). -/
def Obligations.IllegalInstructionLatchesItsOpcode : Prop :=
  ∀ (low : Nibble) (s : State), ∃ t, exec (.illegal low) s = .next t ∧
    faultTaken .decodeError (0b1011#4 ++ low) s t

/-- A step that takes a fault changes the latch and nothing else. Rests on the spec's decision D10 (log 13). -/
def Obligations.FaultsArePrecise : Prop :=
  ∀ s t : State, step s = .next t → t.fault ≠ none → t = { s with fault := t.fault }

/-! ### Frames over all instructions -/

/-- An instruction changes no register but its destination (44_execution_step.md R148, which the spec derives). -/
def Obligations.RegistersChangeOnlyAtDestination : Prop :=
  ∀ (i : Instr) (s t : State), exec i s = .next t → ∀ q, destination i ≠ some q → readReg t q = readReg s q

/-- A cell changes only under an ST whose `effectiveAddress` is that cell (44_execution_step.md R148, which the spec derives). -/
def Obligations.MemoryChangesOnlyAtStoredCell : Prop :=
  ∀ (i : Instr) (s t : State) (a : Nat), exec i s = .next t →
    (∀ r, i = .st r → effectiveAddress s.cfg.oobPolicy (readReg s .r0) ≠ some a) → t.mem.read a = s.mem.read a

/-- After a step `pc` is where it was if the step took a fault, the target of a taken branch, and one more, without wrap,
otherwise. Rests on the spec's decisions D7, D10 (logs 11, 13). -/
def Obligations.PcHoldsOrBranchesOrIncrements : Prop :=
  ∀ s t : State, step s = .next t →
    (t.fault ≠ none → t.pc = s.pc) ∧
    (t.fault = none → ∀ target, takenTarget (decodeNext s) s = some target → t.pc = target) ∧
    (t.fault = none → takenTarget (decodeNext s) s = none → t.pc.toNat = s.pc.toNat + 1)

/-- No step changes a parameter of the run, and DEBUG_EN and LOG_EN change no step: with either set otherwise, the step is the
same (60_exceptions.md, debug instrumentation and logger). The field that holds them is the model's (log 1). -/
def Obligations.HostFlagsNeverAffectTheStep : Prop :=
  (∀ s t : State, step s = .next t → t.cfg = s.cfg) ∧
  (∀ (debugEn logEn : Bool) (s t : State), step s = .next t →
    step (withHostFlags debugEn logEn s) = .next (withHostFlags debugEn logEn t)) ∧
  (∀ (debugEn logEn : Bool) (s : State) (why : Fault), step s = .fault why →
    step (withHostFlags debugEn logEn s) = .fault why)

/-- The debug pause has no effect on the step: whatever lines the console reads, a step that runs is `step`; a run is aborted only
with DEBUG_EN set; and lines with a step command before any `quit` always let it run. Rests on the spec's decision D18
(log 15). -/
def Obligations.DebugPauseIsTransparent : Prop :=
  (∀ (s : State) (lines unread : List DebugCommand) (replies : List DebugReply)
      (o : Host.Outcome State Sys2Proof.Machine.Fault Refusal),
    debugStep s lines = .ran o replies unread → o = step s) ∧
  (∀ (s : State) (lines : List DebugCommand) (replies : List DebugReply),
    debugStep s lines = .aborted replies → s.cfg.debugEn = true) ∧
  (∀ (s : State) (before unread : List DebugCommand), .quit ∉ before →
    ∃ replies rest, debugStep s (before ++ .step :: unread) = .ran (step s) replies rest)

/-! ### Reset -/

/-- Reset puts every register at REG_RESET, `pc` at 0, both flags at 0 and no fault in the latch, for every configuration and program;
the default reset has every register and every cell at 0x00. The register value rests on the spec's decision D8 (log 7), reset itself
on D19 (log 22); that every cell is 0x00 is the model's choice of the zero-length program's image at `State.reset` (log 8). -/
def Obligations.ResetPutsEveryElementAtItsValue : Prop :=
  (∀ (c : Config) (file : List Byte),
    (State.resetWith c file).regs = c.regReset ∧ (State.resetWith c file).pc = 0x00#8 ∧
    (State.resetWith c file).zf = false ∧ (State.resetWith c file).sf = false ∧
    (State.resetWith c file).fault = none ∧ (State.resetWith c file).cfg = c) ∧
  (∀ r, readReg State.reset r = 0x00#8) ∧ (∀ a, State.reset.mem.read a = 0x00#8)

/-- 70_reset_and_hazards.md R212: after reset cell `a` holds byte `a` of the program file, or 0x00 where the file is shorter; bytes
from the eleventh on are ignored; the zero-length file gives the all-zero image. -/
def Obligations.ResetLoadsTheProgramImage : Prop :=
  (∀ (c : Config) (file : List Byte) (a : Nat), a < 10 →
    (∀ h : a < file.length, (State.resetWith c file).mem.read a = file[a]) ∧
    (file.length ≤ a → (State.resetWith c file).mem.read a = 0x00#8)) ∧
  (∀ (c : Config) (file : List Byte), State.resetWith c file = State.resetWith c (file.take 10)) ∧
  (∀ (c : Config) (a : Nat), (State.resetWith c []).mem.read a = 0x00#8)

/-! ### Invariants and whole-machine statements -/

/-- The invariant holds after reset, for every program and every configuration whose code tables are bijections. The clause on
memory's canonical form is about the model's own form (log 8). -/
def Obligations.ResetMeetsTheInvariant : Prop :=
  Inv State.reset ∧ ∀ (c : Config) (file : List Byte), c.wf = true → Inv (State.resetWith c file)

/-- Every step keeps the invariant: memory canonical with ten cells, code tables bijective, flags never both set, the latch
truthful about the instruction at `pc`. The canonical form is the model's own (log 8), the truthful latch rests on the spec's decision
D10 (log 13). -/
def Obligations.EveryStepKeepsTheInvariant : Prop :=
  ∀ s t : State, Inv s → step s = .next t → Inv t

/-- Canonical memories that read alike are equal as data, so comparing states compares machines (the model's canonical form,
log 8). -/
def Obligations.CanonicalMemoriesAreEqualData : Prop :=
  ∀ m n : Memory, m.wf = true → n.wf = true → (∀ a, a < 10 → m.read a = n.read a) → m = n

/-- The structural design of 45_block_interfaces.md, with its decoder outputs, control table, register ports and pc logic, makes the
same step in every state. Rests on the spec's decision D14 (log 19). -/
def Obligations.DatapathEqualsTheStep : Prop :=
  ∀ s : State, datapathStep s = step s

/-- A run that takes no branch and no fault executes exactly one step for each address from its `pc` to 9 and then halts with `pc` at
10: ten steps from address 0 (44_execution_step.md R146, which the spec derives). -/
def Obligations.StraightRunsHaltAtTen : Prop :=
  ∀ s : State, s.pc.toNat ≤ 10 →
    (∀ (j : Nat) (u : State), j ≤ 10 - s.pc.toNat → Host.Core.run Sys2Proof.core j s = .next u →
      u.fault = none ∧ (j < 10 - s.pc.toNat → takenTarget (decodeNext u) u = none)) →
    ∃ t : State, Host.Core.run Sys2Proof.core (10 - s.pc.toNat) s = .next t ∧ t.pc.toNat = 10 ∧
      step t = .fault .halted
end

