-- ==== Sys2Proof/Laws/Memory.lean ====
section
/-! SUPPORT. The memory laws: what a read after a write gives, and that every operation keeps the canonical form. The read
laws hold of every list, canonical or not. -/

namespace Sys2Proof.Machine

/-- The number of cells, for the arithmetic tactics. Not a simp lemma: the laws speak of `memSize`. -/
theorem memSize_eq : memSize = 10 := rfl

@[simp] theorem read_nil (a : Nat) : Memory.read [] a = unlistedByte := rfl

theorem read_cons (b : Nat) (v : Byte) (m : Memory) (a : Nat) :
    Memory.read ((b, v) :: m) a = if b = a then v else m.read a := rfl

theorem read_erase (m : Memory) (a b : Nat) :
    Memory.read (Memory.erase a m) b = if b = a then unlistedByte else m.read b := by
  induction m with
  | nil => simp [Memory.erase]
  | cons c m ih =>
    obtain ⟨d, w⟩ := c
    by_cases hda : d = a <;> by_cases hdb : d = b <;> by_cases hba : b = a <;>
      simp_all [Memory.erase, read_cons]

/-- Inserting a cell into a list that has none for its address. -/
theorem read_insertCell (m : Memory) (a b : Nat) (v : Byte) (h : b = a → m.read a = unlistedByte)
    (hn : ∀ c ∈ m, c.1 ≠ a) :
    Memory.read (Memory.insertCell a v m) b = if b = a then v else m.read b := by
  induction m with
  | nil => simp only [Memory.insertCell, read_cons, read_nil]; by_cases hb : b = a <;> simp [hb, Ne.symm]
  | cons c m ih =>
    obtain ⟨d, w⟩ := c
    have hd : d ≠ a := hn (d, w) (by simp)
    have ih' := ih (fun hb => by simpa [read_cons, hd] using h hb) (fun c hc => hn c (by simp [hc]))
    simp only [Memory.insertCell]
    split
    · by_cases hb : b = a
      · simp [read_cons, hb]
      · simp [read_cons, hb, Ne.symm hb]
    · simp only [read_cons, ih']; by_cases hdb : d = b <;> by_cases hb : b = a <;> simp_all

theorem not_mem_erase (m : Memory) (a : Nat) : ∀ c ∈ Memory.erase a m, c.1 ≠ a := by
  induction m with
  | nil => simp [Memory.erase]
  | cons c m ih =>
    obtain ⟨d, w⟩ := c
    by_cases hda : d = a
    · simpa [Memory.erase, hda] using ih
    · intro x hx
      simp only [Memory.erase, hda, if_false, List.mem_cons] at hx
      rcases hx with rfl | hx
      · exact hda
      · exact ih x hx

/-- A read after a write gives the value written at that address and what was there before at every other one. -/
theorem read_write (m : Memory) (a b : Nat) (v : Byte) :
    (m.write a v).read b = if b = a then v else m.read b := by
  unfold Memory.write
  split
  · next h => rw [read_erase]; simp [h]
  · rw [read_insertCell _ _ _ _ (fun _ => by rw [read_erase]; simp) (not_mem_erase m a), read_erase]
    by_cases hb : b = a <;> simp [hb]

@[simp] theorem read_write_same (m : Memory) (a : Nat) (v : Byte) : (m.write a v).read a = v := by
  simp [read_write]

theorem read_write_other (m : Memory) {a b : Nat} (v : Byte) (h : b ≠ a) : (m.write a v).read b = m.read b := by
  simp [read_write, h]

theorem wfFrom_cons (lo a : Nat) (v : Byte) (m : Memory) :
    Memory.wfFrom lo ((a, v) :: m) = true ↔
      lo ≤ a ∧ a < memSize ∧ v ≠ unlistedByte ∧ Memory.wfFrom (a + 1) m = true := by
  simp [Memory.wfFrom, and_assoc]

theorem wfFrom_mono {lo lo' : Nat} {m : Memory} (hlo : lo ≤ lo') (h : Memory.wfFrom lo' m = true) :
    Memory.wfFrom lo m = true := by
  cases m with
  | nil => rfl
  | cons c m => rw [wfFrom_cons] at h ⊢; exact ⟨hlo.trans h.1, h.2⟩

theorem wfFrom_erase {lo : Nat} {m : Memory} (a : Nat) (h : Memory.wfFrom lo m = true) :
    Memory.wfFrom lo (Memory.erase a m) = true := by
  induction m generalizing lo with
  | nil => rfl
  | cons c m ih =>
    obtain ⟨d, w⟩ := c
    rw [wfFrom_cons] at h
    by_cases hda : d = a
    · simpa [Memory.erase, hda] using wfFrom_mono (by omega) (ih h.2.2.2)
    · simp only [Memory.erase, hda, if_false]
      rw [wfFrom_cons]
      exact ⟨h.1, h.2.1, h.2.2.1, ih h.2.2.2⟩

theorem wfFrom_insertCell {lo a : Nat} {v : Byte} {m : Memory} (h : Memory.wfFrom lo m = true) (hlo : lo ≤ a)
    (ha : a < memSize) (hv : v ≠ unlistedByte) (hn : ∀ c ∈ m, c.1 ≠ a) :
    Memory.wfFrom lo (Memory.insertCell a v m) = true := by
  induction m generalizing lo with
  | nil => exact (wfFrom_cons _ _ _ _).2 ⟨hlo, ha, hv, rfl⟩
  | cons c m ih =>
    obtain ⟨d, w⟩ := c
    have hd : d ≠ a := hn (d, w) (by simp)
    have hc := (wfFrom_cons _ _ _ _).1 h
    simp only [Memory.insertCell]
    split
    · next hlt => exact (wfFrom_cons _ _ _ _).2 ⟨hlo, ha, hv, (wfFrom_cons _ _ _ _).2 ⟨hlt, hc.2⟩⟩
    · exact (wfFrom_cons _ _ _ _).2 ⟨hc.1, hc.2.1, hc.2.2.1, ih hc.2.2.2 (by omega) (fun c h => hn c (by simp [h]))⟩

/-- A write to a cell that exists keeps the canonical form. -/
theorem wf_write {m : Memory} (h : m.wf = true) {a : Nat} (ha : a < memSize) (v : Byte) : (m.write a v).wf = true := by
  unfold Memory.write Memory.wf at *
  split
  · exact wfFrom_erase a h
  · next hv => exact wfFrom_insertCell (wfFrom_erase a h) (Nat.zero_le a) ha hv (not_mem_erase m a)

theorem wf_storeFrom {m : Memory} (h : m.wf = true) (a : Nat) (bytes : List Byte) (hb : a + bytes.length ≤ memSize) :
    (m.storeFrom a bytes).wf = true := by
  induction bytes generalizing m a with
  | nil => exact h
  | cons v rest ih =>
    simp only [List.length_cons] at hb
    exact ih (wf_write h (by omega) v) (a + 1) (by omega)

/-- A program's image is in canonical form. -/
theorem wf_ofFile (file : List Byte) : (Memory.ofFile file).wf = true :=
  wf_storeFrom rfl 0 _ (by simp)

theorem read_storeFrom (m : Memory) (a b : Nat) (bytes : List Byte) :
    (m.storeFrom a bytes).read b = if a ≤ b ∧ b < a + bytes.length then bytes.getD (b - a) 0x00#8 else m.read b := by
  induction bytes generalizing m a with
  | nil => simp [Memory.storeFrom]
  | cons v rest ih =>
    simp only [Memory.storeFrom, ih, List.length_cons, read_write]
    rcases Nat.lt_trichotomy b a with h | rfl | h
    · rw [if_neg (by omega), if_neg (by omega), if_neg (by omega)]
    · rw [if_neg (by omega), if_pos rfl, if_pos (by omega)]; simp
    · obtain ⟨k, rfl⟩ : ∃ k, b = a + 1 + k := ⟨b - (a + 1), by omega⟩
      have hk : a + 1 + k - a = k + 1 := by omega
      simp only [hk, List.getD_cons_succ, Nat.add_sub_cancel_left]
      by_cases hk' : k < rest.length
      · rw [if_pos (by omega), if_pos (by omega)]
      · rw [if_neg (by omega), if_neg (by omega), if_neg (by omega)]

end Sys2Proof.Machine
end

