-- ==== Sys2Proof/Laws/State.lean ====
section
/-! SUPPORT. What each update of the state does to each field, true by definition, so that no proof unfolds a record
update. -/

namespace Sys2Proof.Machine

@[simp] theorem writeReg_mem (r : Reg) (v : Byte) (s : State) : (writeReg r v s).mem = s.mem := rfl
@[simp] theorem writeReg_regs (r : Reg) (v : Byte) (s : State) : (writeReg r v s).regs = setReg s.regs r v := rfl
@[simp] theorem writeReg_pc (r : Reg) (v : Byte) (s : State) : (writeReg r v s).pc = s.pc := rfl
@[simp] theorem writeReg_zf (r : Reg) (v : Byte) (s : State) : (writeReg r v s).zf = s.zf := rfl
@[simp] theorem writeReg_sf (r : Reg) (v : Byte) (s : State) : (writeReg r v s).sf = s.sf := rfl
@[simp] theorem writeReg_fault (r : Reg) (v : Byte) (s : State) : (writeReg r v s).fault = s.fault := rfl
@[simp] theorem writeReg_cfg (r : Reg) (v : Byte) (s : State) : (writeReg r v s).cfg = s.cfg := rfl

@[simp] theorem writeFlags_mem (v : Byte) (s : State) : (writeFlags v s).mem = s.mem := rfl
@[simp] theorem writeFlags_regs (v : Byte) (s : State) : (writeFlags v s).regs = s.regs := rfl
@[simp] theorem writeFlags_pc (v : Byte) (s : State) : (writeFlags v s).pc = s.pc := rfl
@[simp] theorem writeFlags_zf (v : Byte) (s : State) : (writeFlags v s).zf = zeroFlag v := rfl
@[simp] theorem writeFlags_sf (v : Byte) (s : State) : (writeFlags v s).sf = signFlag v := rfl
@[simp] theorem writeFlags_fault (v : Byte) (s : State) : (writeFlags v s).fault = s.fault := rfl
@[simp] theorem writeFlags_cfg (v : Byte) (s : State) : (writeFlags v s).cfg = s.cfg := rfl

@[simp] theorem writeMem_mem (a : Nat) (v : Byte) (s : State) : (writeMem a v s).mem = s.mem.write a v := rfl
@[simp] theorem writeMem_regs (a : Nat) (v : Byte) (s : State) : (writeMem a v s).regs = s.regs := rfl
@[simp] theorem writeMem_pc (a : Nat) (v : Byte) (s : State) : (writeMem a v s).pc = s.pc := rfl
@[simp] theorem writeMem_zf (a : Nat) (v : Byte) (s : State) : (writeMem a v s).zf = s.zf := rfl
@[simp] theorem writeMem_sf (a : Nat) (v : Byte) (s : State) : (writeMem a v s).sf = s.sf := rfl
@[simp] theorem writeMem_fault (a : Nat) (v : Byte) (s : State) : (writeMem a v s).fault = s.fault := rfl
@[simp] theorem writeMem_cfg (a : Nat) (v : Byte) (s : State) : (writeMem a v s).cfg = s.cfg := rfl

@[simp] theorem writePc_mem (t : Byte) (s : State) : (writePc t s).mem = s.mem := rfl
@[simp] theorem writePc_regs (t : Byte) (s : State) : (writePc t s).regs = s.regs := rfl
@[simp] theorem writePc_pc (t : Byte) (s : State) : (writePc t s).pc = t := rfl
@[simp] theorem writePc_zf (t : Byte) (s : State) : (writePc t s).zf = s.zf := rfl
@[simp] theorem writePc_sf (t : Byte) (s : State) : (writePc t s).sf = s.sf := rfl
@[simp] theorem writePc_fault (t : Byte) (s : State) : (writePc t s).fault = s.fault := rfl
@[simp] theorem writePc_cfg (t : Byte) (s : State) : (writePc t s).cfg = s.cfg := rfl

@[simp] theorem advance_mem (s : State) : (advance s).mem = s.mem := rfl
@[simp] theorem advance_regs (s : State) : (advance s).regs = s.regs := rfl
@[simp] theorem advance_pc (s : State) : (advance s).pc = s.pc + 1#8 := rfl
@[simp] theorem advance_zf (s : State) : (advance s).zf = s.zf := rfl
@[simp] theorem advance_sf (s : State) : (advance s).sf = s.sf := rfl
@[simp] theorem advance_fault (s : State) : (advance s).fault = s.fault := rfl
@[simp] theorem advance_cfg (s : State) : (advance s).cfg = s.cfg := rfl

@[simp] theorem raise_mem (c : FaultCause) (v : Byte) (s : State) : (raise c v s).mem = s.mem := rfl
@[simp] theorem raise_regs (c : FaultCause) (v : Byte) (s : State) : (raise c v s).regs = s.regs := rfl
@[simp] theorem raise_pc (c : FaultCause) (v : Byte) (s : State) : (raise c v s).pc = s.pc := rfl
@[simp] theorem raise_zf (c : FaultCause) (v : Byte) (s : State) : (raise c v s).zf = s.zf := rfl
@[simp] theorem raise_sf (c : FaultCause) (v : Byte) (s : State) : (raise c v s).sf = s.sf := rfl
@[simp] theorem raise_fault (c : FaultCause) (v : Byte) (s : State) : (raise c v s).fault = some ⟨c, v⟩ := rfl
@[simp] theorem raise_cfg (c : FaultCause) (v : Byte) (s : State) : (raise c v s).cfg = s.cfg := rfl

@[simp] theorem withHostFlags_mem (d l : Bool) (s : State) : (withHostFlags d l s).mem = s.mem := rfl
@[simp] theorem withHostFlags_regs (d l : Bool) (s : State) : (withHostFlags d l s).regs = s.regs := rfl
@[simp] theorem withHostFlags_pc (d l : Bool) (s : State) : (withHostFlags d l s).pc = s.pc := rfl
@[simp] theorem withHostFlags_zf (d l : Bool) (s : State) : (withHostFlags d l s).zf = s.zf := rfl
@[simp] theorem withHostFlags_sf (d l : Bool) (s : State) : (withHostFlags d l s).sf = s.sf := rfl
@[simp] theorem withHostFlags_fault (d l : Bool) (s : State) : (withHostFlags d l s).fault = s.fault := rfl
@[simp] theorem withHostFlags_cfg (d l : Bool) (s : State) : (withHostFlags d l s).cfg = { s.cfg with debugEn := d, logEn := l } := rfl

@[simp] theorem resetWith_mem (c : Config) (file : List Byte) : (State.resetWith c file).mem = Memory.ofFile file := rfl
@[simp] theorem resetWith_regs (c : Config) (file : List Byte) : (State.resetWith c file).regs = c.regReset := rfl
@[simp] theorem resetWith_pc (c : Config) (file : List Byte) : (State.resetWith c file).pc = 0x00#8 := rfl
@[simp] theorem resetWith_zf (c : Config) (file : List Byte) : (State.resetWith c file).zf = false := rfl
@[simp] theorem resetWith_sf (c : Config) (file : List Byte) : (State.resetWith c file).sf = false := rfl
@[simp] theorem resetWith_fault (c : Config) (file : List Byte) : (State.resetWith c file).fault = none := rfl
@[simp] theorem resetWith_cfg (c : Config) (file : List Byte) : (State.resetWith c file).cfg = c := rfl

end Sys2Proof.Machine
end

