-- ==== Sys2Proof/Laws/Ops.lean ====
section
/-! SUPPORT. What each shared operation can do, said once. -/

namespace Sys2Proof.Machine

@[simp] theorem getReg_setReg_same (f : RegFile) (r : Reg) (v : Byte) : getReg (setReg f r v) r = v := by
  cases r <;> rfl

theorem getReg_setReg_other (f : RegFile) {r q : Reg} (v : Byte) (h : q ≠ r) : getReg (setReg f r v) q = getReg f q := by
  cases r <;> cases q <;> first | rfl | exact absurd rfl h

@[simp] theorem readReg_writeReg_same (r : Reg) (v : Byte) (s : State) : readReg (writeReg r v s) r = v :=
  getReg_setReg_same s.regs r v

theorem readReg_writeReg_other {r q : Reg} (v : Byte) (s : State) (h : q ≠ r) :
    readReg (writeReg r v s) q = readReg s q :=
  getReg_setReg_other s.regs v h

@[simp] theorem readReg_writeFlags (v : Byte) (s : State) (q : Reg) : readReg (writeFlags v s) q = readReg s q := rfl
@[simp] theorem readReg_writeMem (a : Nat) (v : Byte) (s : State) (q : Reg) : readReg (writeMem a v s) q = readReg s q := rfl
@[simp] theorem readReg_writePc (t : Byte) (s : State) (q : Reg) : readReg (writePc t s) q = readReg s q := rfl
@[simp] theorem readReg_advance (s : State) (q : Reg) : readReg (advance s) q = readReg s q := rfl
@[simp] theorem readReg_raise (c : FaultCause) (v : Byte) (s : State) (q : Reg) : readReg (raise c v s) q = readReg s q := rfl
@[simp] theorem readReg_withHostFlags (d l : Bool) (s : State) (q : Reg) :
    readReg (withHostFlags d l s) q = readReg s q := rfl

/-- Every cell an address names exists. -/
theorem effectiveAddress_lt {p : OobPolicy} {addr : Byte} {a : Nat} (h : effectiveAddress p addr = some a) :
    a < memSize := by
  unfold effectiveAddress at h
  split at h
  · next hlt => cases h; exact hlt
  · cases p <;> simp at h
    subst h; exact Nat.mod_lt _ (by decide)

/-- An address names no cell exactly when it is out of range and the policy is `fault`. -/
theorem effectiveAddress_eq_none {p : OobPolicy} {addr : Byte} :
    effectiveAddress p addr = none ↔ p = .fault ∧ memSize ≤ addr.toNat := by
  unfold effectiveAddress
  split
  · next h => simp; omega
  · next h => cases p <;> simp; omega

/-- Everything a data access can do: make the access and advance, or take `BoundsError`. -/
theorem withDataAccess_cases (addr : Byte) (access : Nat → State → State) (s : State) :
    (∃ a, effectiveAddress s.cfg.oobPolicy addr = some a ∧ withDataAccess addr access s = advance (access a s)) ∨
    (s.cfg.oobPolicy = .fault ∧ memSize ≤ addr.toNat ∧ withDataAccess addr access s = raise .boundsError addr s) := by
  unfold withDataAccess
  cases h : effectiveAddress s.cfg.oobPolicy addr with
  | some a => exact .inl ⟨a, rfl, rfl⟩
  | none => exact .inr ⟨(effectiveAddress_eq_none.1 h).1, (effectiveAddress_eq_none.1 h).2, rfl⟩

/-- Everything a branch can do: write the target, or advance. -/
theorem branchTo_cases (taken : Bool) (r : Reg) (s : State) :
    (taken = true ∧ branchTo taken r s = writePc (readReg s r) s) ∨ (taken = false ∧ branchTo taken r s = advance s) := by
  cases taken
  · exact .inr ⟨rfl, rfl⟩
  · exact .inl ⟨rfl, rfl⟩

/-- Where the halt test lets a step through. -/
theorem haltTest_eq_none {s : State} : haltTest s = none ↔ s.fault = none ∧ s.pc.toNat < memSize := by
  unfold haltTest
  split
  · next h => rw [Option.isSome_iff_ne_none] at h; simp [h]
  · next h =>
    rw [Option.not_isSome_iff_eq_none] at h
    split <;> simp [h] <;> omega

/-- Everything a step can do: stop for the halt test's reason, or run the instruction at the program counter. -/
theorem step_cases (s : State) :
    (∃ why, haltTest s = some why ∧ step s = .fault why) ∨
    (haltTest s = none ∧ step s = exec (decodeNext s) s) := by
  unfold step
  cases h : haltTest s with
  | some why => exact .inl ⟨why, rfl, rfl⟩
  | none => exact .inr ⟨rfl, rfl⟩

end Sys2Proof.Machine
end

