-- ==== Sys2Proof/Laws/PerInstr.lean ====
section
/-! SUPPORT. A law of every instruction as syntax: its encoding under the default code tables belongs to the one row of
spec/opcode_table.json that has its mnemonic (30_encoding.md R72). -/

namespace Sys2Proof.Laws.RowMatch

/-- The rows the encoding belongs to are one row, with the instruction's mnemonic. -/
def Statement (i : Instr) : Prop := (rowsOf (encode i)).map OpcodeRow.mnemonic = [mnemonic i]

theorem movl (r : Reg) (imm4 : Nibble) : Statement (.movl r imm4) := by
  unfold Statement; revert imm4; cases r <;> decide
theorem movh (r : Reg) (imm4 : Nibble) : Statement (.movh r imm4) := by
  unfold Statement; revert imm4; cases r <;> decide
theorem ld (r : Reg) : Statement (.ld r) := by unfold Statement; cases r <;> decide
theorem st (r : Reg) : Statement (.st r) := by unfold Statement; cases r <;> decide
theorem b (r : Reg) : Statement (.b r) := by unfold Statement; cases r <;> decide
theorem beq (r : Reg) : Statement (.beq r) := by unfold Statement; cases r <;> decide
theorem bne (r : Reg) : Statement (.bne r) := by unfold Statement; cases r <;> decide
theorem bge (r : Reg) : Statement (.bge r) := by unfold Statement; cases r <;> decide
theorem add (rd rs : Reg) : Statement (.add rd rs) := by unfold Statement; cases rd <;> cases rs <;> decide
theorem sub (rd rs : Reg) : Statement (.sub rd rs) := by unfold Statement; cases rd <;> cases rs <;> decide
theorem and (rd rs : Reg) : Statement (.and rd rs) := by unfold Statement; cases rd <;> cases rs <;> decide
theorem or (rd rs : Reg) : Statement (.or rd rs) := by unfold Statement; cases rd <;> cases rs <;> decide
theorem illegal (low : Nibble) : Statement (.illegal low) := by unfold Statement; revert low; decide

end Sys2Proof.Laws.RowMatch
end

