-- ==== Sys2Proof/Tests/Slice0.lean ====
section
/-! SUPPORT. Tests of one step each, with results from 95_test_vectors.md, the smoke tests of the well-formedness checks, and a
witness for the hypotheses of every statement that has any. -/

namespace Sys2Proof.Tests

open Sys2Proof.Machine Sys2Proof.Safety

/-- A machine with given registers, flags and `pc`, and memory from a list of bytes, under the default configuration. -/
def sample (regs : RegFile) (zf sf : Bool) (pc : Byte) (bytes : List Byte) : State :=
  { State.resetWith defaultConfig bytes with regs := regs, zf := zf, sf := sf, pc := pc }

/-- The memory of section V3: an opcode at 0 and 0xE0 + a at 1 to 9. -/
def v3Bytes (op : Byte) : List Byte := [op, 0xE1, 0xE2, 0xE3, 0xE4, 0xE5, 0xE6, 0xE7, 0xE8, 0xE9]

/-- The same machine under `OOB_POLICY = fault`. -/
def withFaultPolicy (s : State) : State := { s with cfg := { s.cfg with oobPolicy := .fault } }

/-- What is asked of the state after a step, none where there is no next state. -/
def afterStep {α : Type} (s : State) (ask : State → α) : Option α :=
  match step s with
  | .next t => some (ask t)
  | .fault _ => none
  | .refused _ => none

/-! ### Decoding, written out from the encoding tables (30_encoding.md R61 to R64) -/

theorem test_decode_movl : decode 0b00010011#8 = .movl .r1 3#4 := by decide
theorem test_decode_movh : decode 0b01011010#8 = .movh .r1 10#4 := by decide
theorem test_decode_ld : decode 0b10000000#8 = .ld .r0 ∧ decode 0b10000111#8 = .ld .r3 := by decide
theorem test_decode_st : decode 0b10010000#8 = .st .r0 ∧ decode 0b10010110#8 = .st .r2 := by decide
theorem test_decode_b : decode 0b10100011#8 = .b .r3 := by decide
theorem test_decode_beq : decode 0b10100100#8 = .beq .r0 := by decide
theorem test_decode_bne : decode 0b10101011#8 = .bne .r3 := by decide
theorem test_decode_bge : decode 0b10101100#8 = .bge .r0 := by decide
theorem test_decode_add : decode 0b11000001#8 = .add .r1 .r0 ∧ decode 0b11000100#8 = .add .r0 .r1 := by decide
theorem test_decode_sub : decode 0b11011001#8 = .sub .r1 .r2 := by decide
theorem test_decode_and : decode 0b11100110#8 = .and .r2 .r1 := by decide
theorem test_decode_or : decode 0b11111001#8 = .or .r1 .r2 := by decide
theorem test_decode_illegal : decode 0b10110000#8 = .illegal 0#4 ∧ decode 0b10111111#8 = .illegal 15#4 := by decide
theorem test_decode_no_byte : decodeBytes [] = .error .noOpcode := rfl
theorem test_decode_one_byte : decodeBytes [0xD9#8, 0x13#8] = .ok (.sub .r1 .r2, [0x13#8]) := rfl
theorem test_table_word : decodeTableWord 8 0xAF = some (.bge .r3) ∧ decodeTableWord 16 0xAF = none := by decide
theorem test_encode : encode (.sub .r1 .r2) = 0xD9#8 ∧ encode (.ld .r3) = 0x83#8 ∧ encode (.illegal 7#4) = 0xB7#8 := by decide
theorem test_extract : extract 0xAF 4 2 = 0b11#2 ∧ extract 0xD9 2 2 = 0b01#2 ∧ extract 0xB4 0 1 = 1#1 := by decide

/-- Another ALU_CODE table changes what 0xD0 is (30_encoding.md R70). -/
theorem test_decode_other_codes :
    decodeWith { defaultCodes with alu := { at01 := .or, at10 := .sub, at11 := .and } } 0xD9#8 = .or .r1 .r2 := by decide

/-! ### Well-formedness: what each check refuses -/

theorem test_alu_code_refuses_add :
    AluCode.wf ⟨.add, .and, .or⟩ = false ∧ AluCode.wf ⟨.sub, .add, .or⟩ = false ∧ AluCode.wf ⟨.sub, .and, .add⟩ = false := by
  decide
theorem test_alu_code_refuses_repeats :
    AluCode.wf ⟨.sub, .sub, .or⟩ = false ∧ AluCode.wf ⟨.or, .and, .or⟩ = false ∧ AluCode.wf ⟨.sub, .and, .and⟩ = false := by
  decide
theorem test_cond_code_refuses_repeats :
    CondCode.wf ⟨.eq, .eq, .ne, .ge⟩ = false ∧ CondCode.wf ⟨.ne, .eq, .ne, .ge⟩ = false ∧
    CondCode.wf ⟨.ge, .eq, .ne, .ge⟩ = false ∧ CondCode.wf ⟨.always, .eq, .eq, .ge⟩ = false ∧
    CondCode.wf ⟨.always, .eq, .ne, .eq⟩ = false ∧ CondCode.wf ⟨.always, .eq, .ne, .ne⟩ = false := by decide
theorem test_config_refuses_bad_codes :
    Config.wf { defaultConfig with codes := { defaultCodes with alu := ⟨.sub, .sub, .or⟩ } } = false ∧
    Config.wf { defaultConfig with codes := { defaultCodes with cond := ⟨.eq, .eq, .ne, .ge⟩ } } = false := by decide
theorem test_memory_refuses :
    Memory.wf [(1, 5#8), (0, 5#8)] = false ∧ Memory.wf [(1, 5#8), (1, 6#8)] = false ∧
    Memory.wf [(10, 5#8)] = false ∧ Memory.wf [(3, 0#8)] = false := by decide
theorem test_memory_write_is_canonical :
    (Memory.write [(2, 7#8)] 9 1#8).wf = true ∧ Memory.write [(2, 7#8)] 2 0#8 = [] := by decide

/-! ### Move (V2) -/

theorem test_movl : afterStep (sample ⟨0, 0xA7, 0, 0⟩ true true 0 [0x13]) (fun t => (readReg t .r1, t.pc, t.zf)) =
    some (0xA3, 1, true) := by decide
theorem test_movl_zero : afterStep (sample ⟨0x5A, 0, 0, 0⟩ false false 0 [0x00]) (fun t => readReg t .r0) = some 0x50 := by
  decide
theorem test_movh : afterStep (sample ⟨0, 0x07, 0, 0⟩ false false 0 [0x5A]) (fun t => (readReg t .r1, t.sf)) =
    some (0xA7, false) := by decide
theorem test_movh_zero : afterStep (sample ⟨0, 0, 0xFF, 0⟩ false false 0 [0x60]) (fun t => readReg t .r2) = some 0x0F := by
  decide

/-! ### Load and Store (V3) -/

theorem test_ld_wraps : afterStep (sample ⟨0, 0xA7, 0, 0⟩ false false 0 (v3Bytes 0x81)) (fun t => readReg t .r1) =
    some 0xE7 := by decide
theorem test_ld_bounds : afterStep (withFaultPolicy (sample ⟨0, 0x0A, 0, 0⟩ false false 0 (v3Bytes 0x81)))
    (fun t => (t.fault, readReg t .r1, t.pc)) = some (some ⟨.boundsError, 0x0A⟩, 0x0A, 0) := by decide
theorem test_st_own_opcode : afterStep (sample ⟨0, 0, 0, 0⟩ false false 0 (v3Bytes 0x93)) (fun t => (t.mem.read 0, t.pc)) =
    some (0x00, 1) := by decide
theorem test_st_wraps : afterStep (sample ⟨0x13, 0x22, 0, 0⟩ false false 0 (v3Bytes 0x91)) (fun t => (t.mem.read 9, t.mem.read 3)) =
    some (0x22, 0xE3) := by decide

/-! ### Branch (V4) -/

theorem test_b_self : afterStep (sample ⟨0, 4, 0, 0⟩ false true 4 [0, 0, 0, 0, 0xA1]) State.pc = some 4 := by decide
theorem test_b_far : afterStep (sample ⟨0, 0xFF, 0, 0⟩ false false 4 [0, 0, 0, 0, 0xA1]) State.pc = some 0xFF := by decide
theorem test_beq_taken : afterStep (sample ⟨2, 0, 0, 0⟩ true true 4 [0, 0, 0, 0, 0xA4]) State.pc = some 2 := by decide
theorem test_beq_not_taken : afterStep (sample ⟨2, 0, 0, 0⟩ false false 4 [0, 0, 0, 0, 0xA4]) State.pc = some 5 := by decide
theorem test_bne_taken : afterStep (sample ⟨0, 0, 0, 3⟩ false false 4 [0, 0, 0, 0, 0xAB]) State.pc = some 3 := by decide
theorem test_bne_not_taken : afterStep (sample ⟨0, 0, 0, 3⟩ true false 4 [0, 0, 0, 0, 0xAB]) State.pc = some 5 := by decide
theorem test_bge_taken : afterStep (sample ⟨0, 0, 0, 7⟩ true false 4 [0, 0, 0, 0, 0xAF]) State.pc = some 7 := by decide
theorem test_bge_not_taken : afterStep (sample ⟨0, 0, 0, 7⟩ false true 4 [0, 0, 0, 0, 0xAF]) State.pc = some 5 := by decide

/-! ### ALU (V5) -/

/-- The destination, the other register and both flags after a step. -/
def aluView (rd rs : Reg) (t : State) : Byte × Byte × Bool × Bool := (readReg t rd, readReg t rs, t.zf, t.sf)

theorem test_add : afterStep (sample ⟨1, 0xFF, 0, 0⟩ false true 0 [0xC1]) (aluView .r1 .r0) = some (0x00, 1, true, false) := by
  decide
theorem test_add_doubles : afterStep (sample ⟨0x5A, 0, 0, 0⟩ false false 0 [0xC0]) (aluView .r0 .r0) =
    some (0xB4, 0xB4, false, true) := by decide
theorem test_sub : afterStep (sample ⟨0, 3, 1, 0⟩ false false 0 [0xD9]) (aluView .r1 .r2) = some (2, 1, false, false) := by decide
theorem test_sub_other_order :
    afterStep { sample ⟨0, 3, 1, 0⟩ false false 0 [0xD9] with cfg := { defaultConfig with subOrder := .rsMinusRd } }
      (aluView .r1 .r2) = some (0xFE, 1, false, true) := by decide
theorem test_and : afterStep (sample ⟨0, 0x0F, 0xA7, 0⟩ true true 0 [0xE6]) (aluView .r2 .r1) = some (7, 0x0F, false, false) := by
  decide
theorem test_and_same : afterStep (sample ⟨0x80, 0, 0, 0⟩ true false 0 [0xE0]) (aluView .r0 .r0) = some (0x80, 0x80, false, true) := by
  decide
theorem test_or : afterStep (sample ⟨0, 0, 0x80, 0⟩ true false 0 [0xF9]) (aluView .r1 .r2) = some (0x80, 0x80, false, true) := by
  decide
theorem test_or_zero : afterStep (sample ⟨0, 0, 0, 0⟩ false true 0 [0xFF]) (aluView .r3 .r3) = some (0, 0, true, false) := by decide

/-! ### Step, halt, faults (V6) and the structural view -/

theorem test_illegal : afterStep (sample ⟨0, 0, 0, 0⟩ false false 9 [0, 0, 0, 0, 0, 0, 0, 0, 0, 0xBF]) (fun t => (t.fault, t.pc)) =
    some (some ⟨.decodeError, 0xBF⟩, 9) := by decide
theorem test_last_address : afterStep (sample ⟨0, 0, 0, 0⟩ false false 9 [0, 0, 0, 0, 0, 0, 0, 0, 0, 0x13]) (fun t => (t.pc, halted t)) =
    some (10, true) := by decide
theorem test_halted : step (sample ⟨0, 0, 0, 0⟩ false false 0xFF []) = .fault .halted := rfl
theorem test_faulted : step (raise .decodeError 0xB7 State.reset) = .fault .faulted := rfl
theorem test_with_fetch_word :
    step (State.reset.withFetchWord 8 0xD9) = exec (.sub .r1 .r2) (State.reset.withFetchWord 8 0xD9) := rfl
theorem test_datapath_store :
    datapathStep (sample ⟨0x5A, 0xB4, 0, 0⟩ false false 0 (v3Bytes 0x91)) =
      step (sample ⟨0x5A, 0xB4, 0, 0⟩ false false 0 (v3Bytes 0x91)) := rfl

/-- A machine with DEBUG_EN set, about to run `MOVL r1, 3`. -/
def debugSample : State := withHostFlags true false (sample ⟨1, 2, 3, 4⟩ false false 0 [0x13])

theorem test_debug_prints : debugStep debugSample [.printRegister .r2, .unrecognized, .step, .help] =
    .ran (step debugSample) [.register 3] [.help] := rfl
theorem test_debug_end_of_input : debugStep debugSample [.printInstruction] = .aborted [.instruction (.movl .r1 3#4)] := rfl
theorem test_reset_image : (State.resetWith defaultConfig [1, 2, 3, 4, 5, 6, 7, 8, 9, 10, 11]).mem.read 9 = 10 := by decide

/-! ### Witnesses: for every statement with hypotheses, a state and operands that meet them -/

theorem witness_DecodeOfEncodeIsIdentity : defaultCodes.wf = true ∧ (Instr.bge .r3).wf = true := by decide
theorem witness_DecodeOfEncodeIsIdentity_other_codes :
    Codes.wf ⟨⟨.or, .sub, .and⟩, ⟨.ge, .ne, .eq, .always⟩⟩ = true ∧ (Instr.or .r0 .r3).wf = true := by decide
theorem witness_EncodeOfDecodeIsCanonicalOpcode :
    defaultCodes.wf = true ∧ (0x8C#8).extractLsb' 4 4 = 0b1000#4 ∧ (0x9F#8).extractLsb' 4 4 = 0b1001#4 ∧
    (0xA0#8).extractLsb' 4 4 ≠ 0b1000#4 := by decide
theorem witness_StepRunsDecodedInstruction_first : State.reset.fault = none ∧ State.reset.pc.toNat < 10 ∧
    (Instr.movl .r0 0#4).wf = true ∧
    decodeWith State.reset.cfg.codes (State.reset.mem.read State.reset.pc.toNat) = .movl .r0 0#4 := by decide
theorem witness_StepRunsDecodedInstruction_last :
    (sample ⟨0, 0, 0, 0⟩ false false 9 (v3Bytes 0)).fault = none ∧ (sample ⟨0, 0, 0, 0⟩ false false 9 (v3Bytes 0)).pc.toNat < 10 ∧
    (Instr.and .r1 .r2).wf = true ∧
    decodeWith (sample ⟨0, 0, 0, 0⟩ false false 9 (v3Bytes 0)).cfg.codes
      ((sample ⟨0, 0, 0, 0⟩ false false 9 (v3Bytes 0)).mem.read 9) = .and .r1 .r2 := by decide
theorem witness_StepExistsExactlyWhileRunning_halted :
    (¬ ∃ t, step (sample ⟨0, 0, 0, 0⟩ false false 10 []) = .next t) ∧
    Host.Core.run Sys2Proof.core 0 (sample ⟨0, 0, 0, 0⟩ false false 10 []) = .next (sample ⟨0, 0, 0, 0⟩ false false 10 []) := by
  refine ⟨?_, rfl⟩
  rintro ⟨t, h⟩
  cases h
theorem witness_StepExistsExactlyWhileRunning_faulted :
    ¬ ∃ t, step (raise .boundsError 0x0A State.reset) = .next t := by
  rintro ⟨t, h⟩
  cases h
theorem witness_LdReplacesRegisterByCell :
    (sample ⟨0, 10, 0, 0⟩ false false 0 []).cfg.oobPolicy = .wrap ∧
    (readReg (withFaultPolicy (sample ⟨0, 9, 0, 0⟩ false false 0 [])) .r1).toNat < 10 := by decide
theorem witness_StStoresThroughRegisterZero :
    (sample ⟨255, 1, 0, 0⟩ false false 0 []).cfg.oobPolicy = .wrap ∧
    (readReg (withFaultPolicy (sample ⟨9, 1, 0, 0⟩ false false 0 [])) .r0).toNat < 10 := by decide
theorem witness_OutOfRangeAccessTakesBoundsError_ld :
    (withFaultPolicy (sample ⟨0, 10, 0, 0⟩ false false 0 [])).cfg.oobPolicy = .fault ∧
    10 ≤ (readReg (withFaultPolicy (sample ⟨0, 10, 0, 0⟩ false false 0 [])) .r1).toNat := by decide
theorem witness_OutOfRangeAccessTakesBoundsError_st :
    (withFaultPolicy (sample ⟨255, 0, 0, 0⟩ false false 0 [])).cfg.oobPolicy = .fault ∧
    10 ≤ (readReg (withFaultPolicy (sample ⟨255, 0, 0, 0⟩ false false 0 [])) .r0).toNat := by decide
theorem witness_OutOfRangeAccessTakesBoundsError_wrap :
    State.reset.cfg.oobPolicy = .wrap ∧ State.reset.fault = none ∧ ∃ t, exec (.ld .r0) State.reset = .next t :=
  ⟨rfl, rfl, _, rfl⟩
theorem witness_StoreThenLoadRoundTrips :
    effectiveAddress (sample ⟨0x5A, 7, 0, 0⟩ false false 0 []).cfg.oobPolicy (readReg (sample ⟨0x5A, 7, 0, 0⟩ false false 0 []) .r0) =
      some 0 ∧
    effectiveAddress (sample ⟨0x5A, 7, 0, 0⟩ false false 0 []).cfg.oobPolicy (readReg (sample ⟨0x5A, 7, 0, 0⟩ false false 0 []) .r2) =
      some 0 := by decide
theorem witness_StoredByteIsTheNextFetch :
    ∃ t, exec (.st .r1) (sample ⟨9, 0xB0, 0, 0⟩ false false 0 []) = .next t ∧
      effectiveAddress .wrap (readReg (sample ⟨9, 0xB0, 0, 0⟩ false false 0 []) .r0) = some 9 ∧
      (writePc 9 t).mem = t.mem ∧ (writePc 9 t).cfg = t.cfg ∧ (writePc 9 t).pc.toNat = 9 :=
  ⟨_, rfl, by decide, rfl, rfl, rfl⟩
theorem witness_SelfBranchLoopsAndFarBranchHalts :
    takenTarget (.b .r1) (sample ⟨0, 4, 0, 0⟩ false true 4 []) = some 4 ∧
    takenTarget (.beq .r1) (sample ⟨0, 10, 0, 0⟩ true false 4 []) = some 10 ∧
    takenTarget (.bne .r1) (sample ⟨0, 255, 0, 0⟩ false false 4 []) = some 255 ∧
    takenTarget (.bge .r1) (sample ⟨0, 10, 0, 0⟩ true false 4 []) = some 10 ∧
    (sample ⟨0, 10, 0, 0⟩ true false 4 []).fault = none := by decide
theorem witness_FlagsWrittenByAluReadByBranches_alu :
    (∃ t, exec (.and .r1 .r2) State.reset = .next t) ∧ isAlu (.and .r1 .r2) = true := ⟨⟨_, rfl⟩, rfl⟩
theorem witness_FlagsWrittenByAluReadByBranches_other :
    (∃ t, exec (.ld .r1) State.reset = .next t) ∧ isAlu (.ld .r1) = false ∧
      ∀ r, Instr.ld .r1 ≠ .beq r ∧ Instr.ld .r1 ≠ .bne r ∧ Instr.ld .r1 ≠ .bge r :=
  ⟨⟨_, rfl⟩, rfl, fun _ => ⟨Instr.noConfusion, Instr.noConfusion, Instr.noConfusion⟩⟩
theorem witness_FlagsWrittenByAluReadByBranches_branches :
    (∃ t, exec (.beq .r1) State.reset = .next t) ∧ (∃ t, exec (.bne .r1) State.reset = .next t) ∧
      ∃ t, exec (.bge .r1) State.reset = .next t := ⟨⟨_, rfl⟩, ⟨_, rfl⟩, ⟨_, rfl⟩⟩
theorem witness_SubFlagsCompareOperands_fits :
    (∃ t, exec (.sub .r0 .r1) (sample ⟨0x7F, 0, 0, 0⟩ false false 0 []) = .next t) ∧
    (sample ⟨0x7F, 0, 0, 0⟩ false false 0 []).cfg.subOrder = .rdMinusRs ∧
    (0x7F#8).toInt - (0x00#8).toInt ≤ 127 ∧ -128 ≤ (0x80#8).toInt - (0x00#8).toInt :=
  ⟨⟨_, rfl⟩, rfl, by decide, by decide⟩
theorem witness_SubFlagsCompareOperands_overflows :
    (∃ t, exec (.sub .r0 .r1) (sample ⟨0x80, 1, 0, 0⟩ false false 0 []) = .next t) ∧
    ¬ (-128 ≤ (0x80#8).toInt - (0x01#8).toInt ∧ (0x80#8).toInt - (0x01#8).toInt ≤ 127) := ⟨⟨_, rfl⟩, by decide⟩
theorem witness_IllegalOpcodesTakeDecodeError_first :
    (sample ⟨0, 0, 0, 0⟩ false false 0 [0xB0]).fault = none ∧ (sample ⟨0, 0, 0, 0⟩ false false 0 [0xB0]).pc.toNat < 10 ∧
    (fetch (sample ⟨0, 0, 0, 0⟩ false false 0 [0xB0])).extractLsb' 4 4 = 0b1011#4 := by decide
theorem witness_IllegalOpcodesTakeDecodeError_last :
    (sample ⟨0, 0, 0, 0⟩ false false 9 [0, 0, 0, 0, 0, 0, 0, 0, 0, 0xBF]).fault = none ∧
    (sample ⟨0, 0, 0, 0⟩ false false 9 [0, 0, 0, 0, 0, 0, 0, 0, 0, 0xBF]).pc.toNat < 10 ∧
    (fetch (sample ⟨0, 0, 0, 0⟩ false false 9 [0, 0, 0, 0, 0, 0, 0, 0, 0, 0xBF])).extractLsb' 4 4 = 0b1011#4 := by decide
theorem witness_IllegalOpcodesTakeDecodeError_only :
    ∃ t, step (sample ⟨0, 0, 0, 0⟩ false false 0 [0xB7]) = .next t ∧ t.fault = some ⟨.decodeError, 0xB7⟩ := ⟨_, rfl, rfl⟩
theorem witness_FaultsArePrecise :
    ∃ t, step (sample ⟨0, 0, 0, 0⟩ false false 0 [0xB7]) = .next t ∧ t.fault ≠ none := ⟨_, rfl, by decide⟩
theorem witness_RegistersChangeOnlyAtDestination :
    (∃ t, exec (.ld .r1) State.reset = .next t) ∧ destination (.ld .r1) ≠ some .r0 := ⟨⟨_, rfl⟩, by decide⟩
theorem witness_MemoryChangesOnlyAtStoredCell :
    (∃ t, exec (.st .r1) (sample ⟨9, 1, 0, 0⟩ false false 0 []) = .next t) ∧
    ∀ r, Instr.st .r1 = .st r →
      effectiveAddress (sample ⟨9, 1, 0, 0⟩ false false 0 []).cfg.oobPolicy (readReg (sample ⟨9, 1, 0, 0⟩ false false 0 []) .r0) ≠
        some 8 := ⟨⟨_, rfl⟩, fun _ _ => by decide⟩
theorem witness_PcHoldsOrBranchesOrIncrements_fault :
    ∃ t, step (sample ⟨0, 0, 0, 0⟩ false false 9 [0, 0, 0, 0, 0, 0, 0, 0, 0, 0xB7]) = .next t ∧ t.fault ≠ none :=
  ⟨_, rfl, by decide⟩
theorem witness_PcHoldsOrBranchesOrIncrements_branch :
    ∃ t, step (sample ⟨0, 0xFF, 0, 0⟩ false false 0 [0xA1]) = .next t ∧ t.fault = none ∧
      takenTarget (decodeNext (sample ⟨0, 0xFF, 0, 0⟩ false false 0 [0xA1])) (sample ⟨0, 0xFF, 0, 0⟩ false false 0 [0xA1]) = some 0xFF :=
  ⟨_, rfl, rfl, by decide⟩
theorem witness_PcHoldsOrBranchesOrIncrements_increment :
    ∃ t, step (sample ⟨0, 0, 0, 0⟩ false false 9 []) = .next t ∧ t.fault = none ∧
      takenTarget (decodeNext (sample ⟨0, 0, 0, 0⟩ false false 9 [])) (sample ⟨0, 0, 0, 0⟩ false false 9 []) = none :=
  ⟨_, rfl, rfl, by decide⟩
theorem witness_HostFlagsNeverAffectTheStep :
    (∃ t, step State.reset = .next t) ∧ step (sample ⟨0, 0, 0, 0⟩ false false 10 []) = .fault .halted := ⟨⟨_, rfl⟩, rfl⟩
theorem witness_DebugPauseIsTransparent_ran :
    debugStep debugSample [.help, .step] = .ran (step debugSample) [.help] [] ∧ DebugCommand.quit ∉ [DebugCommand.help] :=
  ⟨rfl, by decide⟩
theorem witness_DebugPauseIsTransparent_aborted : debugStep debugSample [.help, .quit, .step] = .aborted [.help] := rfl
theorem witness_ResetLoadsTheProgramImage : 9 < 10 ∧ 9 < (v3Bytes 0x81).length ∧ ([0x13#8] : List Byte).length ≤ 1 := by decide
theorem witness_ResetMeetsTheInvariant : defaultConfig.wf = true := by decide
theorem witness_EveryStepKeepsTheInvariant : Inv State.reset ∧ ∃ t, step State.reset = .next t := ⟨by decide, _, rfl⟩
theorem witness_EveryStepKeepsTheInvariant_fault :
    Inv (withFaultPolicy (sample ⟨10, 0, 0, 0⟩ false true 9 [0, 0, 0, 0, 0, 0, 0, 0, 0, 0x90])) ∧
    ∃ t, step (withFaultPolicy (sample ⟨10, 0, 0, 0⟩ false true 9 [0, 0, 0, 0, 0, 0, 0, 0, 0, 0x90])) = .next t ∧
      t.fault = some ⟨.boundsError, 10⟩ := ⟨by decide, _, rfl, rfl⟩
theorem witness_CanonicalMemoriesAreEqualData :
    Memory.wf [(0, 1#8), (9, 2#8)] = true ∧ (Memory.write (Memory.write [] 9 2#8) 0 1#8).wf = true ∧
    ∀ a, a < 10 → Memory.read [(0, 1#8), (9, 2#8)] a = (Memory.write (Memory.write [] 9 2#8) 0 1#8).read a := by decide
theorem witness_StraightRunsHaltAtTen_at_ten :
    (sample ⟨0, 0, 0, 0⟩ false false 10 []).pc.toNat ≤ 10 ∧
    ∀ (j : Nat) (u : State), j ≤ 10 - (sample ⟨0, 0, 0, 0⟩ false false 10 []).pc.toNat →
      Host.Core.run Sys2Proof.core j (sample ⟨0, 0, 0, 0⟩ false false 10 []) = .next u →
      u.fault = none ∧ (j < 10 - (sample ⟨0, 0, 0, 0⟩ false false 10 []).pc.toNat → takenTarget (decodeNext u) u = none) := by
  refine ⟨by decide, fun j u hj h => ?_⟩
  obtain rfl : j = 0 := by simpa [sample] using hj
  cases h
  exact ⟨rfl, fun hlt => absurd hlt (by decide)⟩
theorem witness_StraightRunsHaltAtTen_one_step :
    (sample ⟨0, 0, 0, 0⟩ false false 9 []).pc.toNat ≤ 10 ∧
    ∀ (j : Nat) (u : State), j ≤ 10 - (sample ⟨0, 0, 0, 0⟩ false false 9 []).pc.toNat →
      Host.Core.run Sys2Proof.core j (sample ⟨0, 0, 0, 0⟩ false false 9 []) = .next u →
      u.fault = none ∧ (j < 10 - (sample ⟨0, 0, 0, 0⟩ false false 9 []).pc.toNat → takenTarget (decodeNext u) u = none) := by
  refine ⟨by decide, fun j u hj h => ?_⟩
  have hj' : j ≤ 1 := by simpa [sample] using hj
  interval_cases j
  · cases h
    exact ⟨rfl, fun _ => by decide⟩
  · cases h
    exact ⟨rfl, fun hlt => absurd hlt (by decide)⟩
theorem witness_StraightRunsHaltAtTen_ten_steps :
    State.reset.pc.toNat ≤ 10 ∧
    ∀ (j : Nat) (u : State), j ≤ 10 - State.reset.pc.toNat → Host.Core.run Sys2Proof.core j State.reset = .next u →
      u.fault = none ∧ (j < 10 - State.reset.pc.toNat → takenTarget (decodeNext u) u = none) := by
  refine ⟨by decide, fun j u hj h => ?_⟩
  have hj' : j ≤ 10 := hj
  interval_cases j <;> cases h <;> exact ⟨rfl, by decide⟩

end Sys2Proof.Tests
end

section
/-! The Move family (40_move.md). An instruction that ends in one register write and the advance has the same effect and
frame whatever the value is, so MOVL and MOVH differ only in their opcode and in the byte they build. -/

namespace Sys2Proof

/-! ### Format M, read field by field -/

@[simp] theorem regOfBits_regBits (r : Reg) : regOfBits (regBits r) = r := by
  cases r <;> rfl

@[simp] theorem extract_formatM_mode (p : BitVec 2) (r : Reg) (imm4 : Nibble) : extract (formatM p r imm4) 0 2 = p :=
  (BitVec.extractLsb'_append_eq_of_le (by decide)).trans BitVec.extractLsb'_append_eq_left

@[simp] theorem extract_formatM_reg (p : BitVec 2) (r : Reg) (imm4 : Nibble) :
    extract (formatM p r imm4) 2 2 = regBits r :=
  (BitVec.extractLsb'_append_eq_of_le (by decide)).trans BitVec.extractLsb'_append_eq_right

@[simp] theorem extract_formatM_imm4 (p : BitVec 2) (r : Reg) (imm4 : Nibble) :
    extract (formatM p r imm4) 4 4 = imm4 :=
  BitVec.extractLsb'_append_eq_right

theorem decodeWith_formatM_low (k : Codes) (r : Reg) (imm4 : Nibble) :
    decodeWith k (formatM 0b00#2 r imm4) = .movl r imm4 := by
  simp [decodeWith]

theorem decodeWith_formatM_high (k : Codes) (r : Reg) (imm4 : Nibble) :
    decodeWith k (formatM 0b01#2 r imm4) = .movh r imm4 := by
  simp [decodeWith]

end Sys2Proof

namespace Sys2Proof.Machine

open Sys2Proof.Safety

/-! ### The bytes the two instructions build

Mask and immediate are nibbles put together, so a merge can be read off nibble by nibble. -/

theorem setWidth_nibble_eq_append (n : Nibble) : n.setWidth 8 = 0x0#4 ++ n := by
  revert n; decide

theorem shiftLeft_nibble_eq_append (n : Nibble) : n.setWidth 8 <<< 4 = n ++ 0x0#4 := by
  revert n; decide

theorem mergeLow_append (hi lo imm4 : Nibble) : mergeLow (hi ++ lo) imm4 = hi ++ imm4 := by
  calc mergeLow (hi ++ lo) imm4
      = ((hi ++ lo) &&& (BitVec.allOnes 4 ++ 0x0#4)) ||| (0x0#4 ++ imm4) := by
        rw [← setWidth_nibble_eq_append]; rfl
    _ = (hi &&& BitVec.allOnes 4 ||| 0x0#4) ++ (lo &&& 0x0#4 ||| imm4) := by
        rw [BitVec.and_append, BitVec.or_append]
    _ = hi ++ imm4 := by rw [BitVec.and_allOnes, BitVec.or_zero, BitVec.and_zero, BitVec.zero_or]

theorem mergeHigh_append (hi lo imm4 : Nibble) : mergeHigh (hi ++ lo) imm4 = imm4 ++ lo := by
  calc mergeHigh (hi ++ lo) imm4
      = ((hi ++ lo) &&& (0x0#4 ++ BitVec.allOnes 4)) ||| (imm4 ++ 0x0#4) := by
        rw [← shiftLeft_nibble_eq_append]; rfl
    _ = (hi &&& 0x0#4 ||| imm4) ++ (lo &&& BitVec.allOnes 4 ||| 0x0#4) := by
        rw [BitVec.and_append, BitVec.or_append]
    _ = imm4 ++ lo := by rw [BitVec.and_zero, BitVec.zero_or, BitVec.and_allOnes, BitVec.or_zero]

theorem mergeLow_eq_append (old : Byte) (imm4 : Nibble) : mergeLow old imm4 = old.extractLsb' 4 4 ++ imm4 := by
  have hold : old.extractLsb' 4 4 ++ old.extractLsb' 0 4 = old := BitVec.extractLsb'_append_extractLsb'
  rw [← mergeLow_append _ (old.extractLsb' 0 4), hold]

theorem mergeHigh_eq_append (old : Byte) (imm4 : Nibble) : mergeHigh old imm4 = imm4 ++ old.extractLsb' 0 4 := by
  have hold : old.extractLsb' 4 4 ++ old.extractLsb' 0 4 = old := BitVec.extractLsb'_append_extractLsb'
  rw [← mergeHigh_append (old.extractLsb' 4 4), hold]

/-! ### One register write and the advance -/

theorem exec_movl (r : Reg) (imm4 : Nibble) (s : State) :
    exec (.movl r imm4) s = .next (advance (writeReg r (mergeLow (readReg s r) imm4) s)) := rfl

theorem exec_movh (r : Reg) (imm4 : Nibble) (s : State) :
    exec (.movh r imm4) s = .next (advance (writeReg r (mergeHigh (readReg s r) imm4) s)) := rfl

/-- The effect and the whole frame of an instruction that replaces one register and advances. -/
theorem exec_effect_of_advance_writeReg {i : Instr} {r : Reg} {v : Byte} {s : State}
    (hexec : exec i s = .next (advance (writeReg r v s))) :
    ∃ t, exec i s = .next t ∧ readReg t r = v ∧ t.pc = s.pc + 1#8 ∧
      regsKeptBut r s t ∧ memKept s t ∧ flagsKept s t ∧ restKept s t := by
  have hothers : regsKeptBut r s (advance (writeReg r v s)) := fun q hq => by
    rw [readReg_advance, readReg_writeReg_other v s hq]
  exact ⟨_, hexec, by simp, rfl, hothers, fun _ => rfl, ⟨rfl, rfl⟩, ⟨rfl, rfl⟩⟩

/-- Settles O8: the decode of format M with mode 00, the merge as nibbles, and the one-register effect (40_move.md R90). -/
theorem movlReplacesLowNibble : Obligations.MovlReplacesLowNibble := by
  intro r imm4
  refine ⟨fun k => decodeWith_formatM_low k r imm4, fun s => ?_⟩
  rw [← mergeLow_eq_append]
  exact exec_effect_of_advance_writeReg (exec_movl r imm4 s)

/-- Settles O9: the decode of format M with mode 01, the merge as nibbles, and the one-register effect (40_move.md R91). -/
theorem movhReplacesHighNibble : Obligations.MovhReplacesHighNibble := by
  intro r imm4
  refine ⟨fun k => decodeWith_formatM_high k r imm4, fun s => ?_⟩
  rw [← mergeHigh_eq_append]
  exact exec_effect_of_advance_writeReg (exec_movh r imm4 s)

end Sys2Proof.Machine
end

section
/-! The execution step (44_execution_step.md). Every arm of `exec` answers a next state, so the halt test alone decides whether
a step exists, and a run of one step or more begins with a step that does. -/

namespace Sys2Proof.Machine

/-- No instruction stops the machine by itself: a machine fault is a next state too (60_exceptions.md R186). -/
theorem exec_exists_next (i : Instr) (s : State) : ∃ t, exec i s = .next t := by
  cases i <;> exact ⟨_, rfl⟩

theorem step_exists_next_iff_haltTest (s : State) : (∃ t, step s = .next t) ↔ haltTest s = none := by
  rcases step_cases s with ⟨why, hhalt, hstep⟩ | ⟨hhalt, hstep⟩
  · simp [hhalt, hstep]
  · simp [hhalt, hstep, exec_exists_next]

/-- 44_execution_step.md R141: the condition for a step to exist. -/
theorem step_exists_next_iff (s : State) : (∃ t, step s = .next t) ↔ s.fault = none ∧ s.pc.toNat < 10 :=
  (step_exists_next_iff_haltTest s).trans haltTest_eq_none

/-- What a run of at least one step that reaches a state consists of, on any machine. -/
theorem step_and_run_of_run_succ {M : Host.Core} {k : Nat} {s t : M.State} (hrun : M.run (k + 1) s = .next t) :
    ∃ u, M.step s = .next u ∧ M.run k u = .next t := by
  rw [Host.Core.run] at hrun
  split at hrun
  · next u hstep => exact ⟨u, hstep, hrun⟩
  · cases hrun
  · cases hrun

theorem eq_of_run_of_no_step {s : State} (hstop : ¬ ∃ t, step s = .next t) (k : Nat) (t : State)
    (hrun : Host.Core.run Sys2Proof.core k s = .next t) : t = s := by
  cases k with
  | zero => cases hrun; rfl
  | succ k =>
    obtain ⟨u, hstep, -⟩ := step_and_run_of_run_succ hrun
    exact absurd ⟨u, hstep⟩ hstop

/-- Settles O6: the halt test decides whether a step exists, the reset state passes it, and a run from a state that does not
has no first step to take (44_execution_step.md R141). -/
theorem stepExistsExactlyWhileRunning : Obligations.StepExistsExactlyWhileRunning := by
  refine ⟨step_exists_next_iff, fun c file => ?_, fun s => eq_of_run_of_no_step⟩
  exact (step_exists_next_iff _).2 ⟨resetWith_fault c file, by simp⟩

end Sys2Proof.Machine
end

section
/-! The program image at reset (70_reset_and_hazards.md). Reset depends on the program file only through the memory image, and
the image is the file's first `memSize` bytes stored into an empty memory, so padding and truncation are facts about
`Memory.ofFile`. -/

namespace Sys2Proof.Machine

/-- Padding, cell by cell: past the end of the file `getD` answers what an unlisted cell reads as. -/
theorem read_ofFile (file : List Byte) {a : Nat} (ha : a < memSize) :
    (Memory.ofFile file).read a = file.getD a 0x00#8 := by
  rw [Memory.ofFile, read_storeFrom]
  by_cases hfile : a < file.length
  · have hstored : 0 ≤ a ∧ a < 0 + (file.take memSize).length := by
      rw [List.length_take]; omega
    rw [if_pos hstored, Nat.sub_zero, List.getD_eq_getElem?_getD, List.getElem?_take_of_lt ha,
      ← List.getD_eq_getElem?_getD]
  · have hbeyond : ¬ (0 ≤ a ∧ a < 0 + (file.take memSize).length) := by
      rw [List.length_take]; omega
    rw [if_neg hbeyond, read_nil, List.getD_eq_default _ _ (Nat.le_of_not_lt hfile)]
    rfl

/-- Truncation: bytes from the eleventh on change nothing. -/
theorem ofFile_take_memSize (file : List Byte) : Memory.ofFile (file.take memSize) = Memory.ofFile file := by
  rw [Memory.ofFile, Memory.ofFile, List.take_take, Nat.min_self]

@[simp] theorem ofFile_nil : Memory.ofFile [] = [] := rfl

theorem resetWith_congr (c : Config) {file file' : List Byte} (himage : Memory.ofFile file = Memory.ofFile file') :
    State.resetWith c file = State.resetWith c file' := by
  rw [State.resetWith, State.resetWith, himage]

/-- Settles O33: the three clauses are the padding, the truncation and the empty image of `Memory.ofFile`
(70_reset_and_hazards.md R212). -/
theorem resetLoadsTheProgramImage : Obligations.ResetLoadsTheProgramImage := by
  refine ⟨fun c file a ha => ⟨fun hfile => ?byte, fun hshort => ?padding⟩, fun c file => ?truncation, fun c a => ?empty⟩
  case byte => rw [resetWith_mem, read_ofFile file ha, List.getD_eq_getElem _ _ hfile]
  case padding => rw [resetWith_mem, read_ofFile file ha, List.getD_eq_default _ _ hshort]
  case truncation => exact resetWith_congr c (ofFile_take_memSize file).symm
  case empty => rw [resetWith_mem, ofFile_nil, read_nil]; rfl

end Sys2Proof.Machine
end

section
/-! The encoding (30_encoding.md). Every opcode is a word of some format, and the decoder is known on each format, so that
statements about all 256 opcodes are split by format and not by value. -/

namespace Sys2Proof

/-! ### Formats S and A and the illegal range, read field by field -/

@[simp] theorem extract_formatS_group (p : BitVec 4) (c : BitVec 2) (r : Reg) : extract (formatS p c r) 0 4 = p :=
  (BitVec.extractLsb'_append_eq_of_le (by decide)).trans BitVec.extractLsb'_append_eq_left

@[simp] theorem extract_formatS_mode (p : BitVec 4) (c : BitVec 2) (r : Reg) :
    extract (formatS p c r) 0 2 = p.extractLsb' 2 2 :=
  (BitVec.extractLsb'_append_eq_of_le (by decide)).trans (BitVec.extractLsb'_append_eq_of_le (by decide))

@[simp] theorem extract_formatS_code (p : BitVec 4) (c : BitVec 2) (r : Reg) : extract (formatS p c r) 4 2 = c :=
  (BitVec.extractLsb'_append_eq_of_le (by decide)).trans BitVec.extractLsb'_append_eq_right

@[simp] theorem extract_formatS_reg (p : BitVec 4) (c : BitVec 2) (r : Reg) :
    extract (formatS p c r) 6 2 = regBits r :=
  BitVec.extractLsb'_append_eq_right

@[simp] theorem extract_formatA_mode (aop : BitVec 2) (rs rd : Reg) : extract (formatA aop rs rd) 0 2 = 0b11#2 :=
  (BitVec.extractLsb'_append_eq_of_le (by decide)).trans
    ((BitVec.extractLsb'_append_eq_of_le (by decide)).trans BitVec.extractLsb'_append_eq_left)

@[simp] theorem extract_formatA_aop (aop : BitVec 2) (rs rd : Reg) : extract (formatA aop rs rd) 2 2 = aop :=
  (BitVec.extractLsb'_append_eq_of_le (by decide)).trans
    ((BitVec.extractLsb'_append_eq_of_le (by decide)).trans BitVec.extractLsb'_append_eq_right)

@[simp] theorem extract_formatA_rs (aop : BitVec 2) (rs rd : Reg) : extract (formatA aop rs rd) 4 2 = regBits rs :=
  (BitVec.extractLsb'_append_eq_of_le (by decide)).trans BitVec.extractLsb'_append_eq_right

@[simp] theorem extract_formatA_rd (aop : BitVec 2) (rs rd : Reg) : extract (formatA aop rs rd) 6 2 = regBits rd :=
  BitVec.extractLsb'_append_eq_right

@[simp] theorem extract_illegalOpcode_group (low : Nibble) : extract (illegalOpcode low) 0 4 = 0b1011#4 :=
  BitVec.extractLsb'_append_eq_left

@[simp] theorem extract_illegalOpcode_mode (low : Nibble) : extract (illegalOpcode low) 0 2 = 0b10#2 :=
  BitVec.extractLsb'_append_eq_of_le (by decide)

@[simp] theorem extract_illegalOpcode_low (low : Nibble) : extract (illegalOpcode low) 4 4 = low :=
  BitVec.extractLsb'_append_eq_right

/-! ### What the decoder answers on each format -/

theorem decodeWith_formatS_load (k : Codes) (c : BitVec 2) (r : Reg) : decodeWith k (formatS 0b1000#4 c r) = .ld r := by
  simp [decodeWith]

theorem decodeWith_formatS_store (k : Codes) (c : BitVec 2) (r : Reg) : decodeWith k (formatS 0b1001#4 c r) = .st r := by
  simp [decodeWith]

theorem decodeWith_formatS_branch (k : Codes) (c : BitVec 2) (r : Reg) :
    decodeWith k (formatS 0b1010#4 c r) = branchInstr (condOf k.cond c) r := by
  simp [decodeWith]

theorem decodeWith_formatA (k : Codes) (aop : BitVec 2) (rs rd : Reg) :
    decodeWith k (formatA aop rs rd) = aluInstr (aluOpOf k.alu aop) rd rs := by
  simp [decodeWith]

theorem decodeWith_illegalOpcode (k : Codes) (low : Nibble) : decodeWith k (illegalOpcode low) = .illegal low := by
  simp [decodeWith]

/-! ### Every opcode is a word of one format -/

@[simp] theorem regBits_regOfBits (b : BitVec 2) : regBits (regOfBits b) = b := by
  revert b; decide

theorem formatM_extract (op : Byte) :
    formatM (extract op 0 2) (regOfBits (extract op 2 2)) (extract op 4 4) = op := by
  rw [formatM, regBits_regOfBits]
  revert op; decide

theorem formatS_extract (op : Byte) :
    formatS (extract op 0 4) (extract op 4 2) (regOfBits (extract op 6 2)) = op := by
  rw [formatS, regBits_regOfBits]
  revert op; decide

theorem formatA_extract {op : Byte} (hmode : extract op 0 2 = 0b11#2) :
    formatA (extract op 2 2) (regOfBits (extract op 4 2)) (regOfBits (extract op 6 2)) = op := by
  rw [formatA, regBits_regOfBits, regBits_regOfBits, ← hmode]
  clear hmode; revert op; decide

theorem illegalOpcode_extract {op : Byte} (hgroup : extract op 0 4 = 0b1011#4) : illegalOpcode (extract op 4 4) = op := by
  rw [illegalOpcode, ← hgroup]
  exact BitVec.extractLsb'_append_extractLsb'

/-- The shapes an opcode can have, by the rows of the encoding tables (30_encoding.md R61 to R63, R71). -/
inductive OpcodeForm : Byte → Prop
  | moveLow (r : Reg) (imm4 : Nibble) : OpcodeForm (formatM 0b00#2 r imm4)
  | moveHigh (r : Reg) (imm4 : Nibble) : OpcodeForm (formatM 0b01#2 r imm4)
  | load (ignored : BitVec 2) (r : Reg) : OpcodeForm (formatS 0b1000#4 ignored r)
  | store (ignored : BitVec 2) (r : Reg) : OpcodeForm (formatS 0b1001#4 ignored r)
  | branch (code : BitVec 2) (r : Reg) : OpcodeForm (formatS 0b1010#4 code r)
  | alu (aop : BitVec 2) (rs rd : Reg) : OpcodeForm (formatA aop rs rd)
  | illegal (low : Nibble) : OpcodeForm (illegalOpcode low)

/-- The groups of the opcodes whose mode is neither Move nor ALU. -/
theorem extract_group_of_mode {op : Byte} (hmode : extract op 0 2 = 0b10#2) :
    extract op 0 4 = 0b1000#4 ∨ extract op 0 4 = 0b1001#4 ∨ extract op 0 4 = 0b1010#4 ∨ extract op 0 4 = 0b1011#4 := by
  revert op; decide

theorem bits2_cases (b : BitVec 2) : b = 0b00#2 ∨ b = 0b01#2 ∨ b = 0b10#2 ∨ b = 0b11#2 := by
  revert b; decide

theorem opcodeForm (op : Byte) : OpcodeForm op := by
  rcases bits2_cases (extract op 0 2) with hmode | hmode | hmode | hmode
  · rw [← formatM_extract op, hmode]; exact .moveLow _ _
  · rw [← formatM_extract op, hmode]; exact .moveHigh _ _
  · rcases extract_group_of_mode hmode with hgroup | hgroup | hgroup | hgroup
    · rw [← formatS_extract op, hgroup]; exact .load _ _
    · rw [← formatS_extract op, hgroup]; exact .store _ _
    · rw [← formatS_extract op, hgroup]; exact .branch _ _
    · rw [← illegalOpcode_extract hgroup]; exact .illegal _
  · rw [← formatA_extract hmode]; exact .alu _ _ _

/-! ### The code tables: a bijection is undone from either side

The distinctness that `wf` asks for makes the code of the operation at a code that code again. The other direction is counting:
four codes reach four operations only if every operation has a code. -/

theorem aluCodeOf_aluOpOf {t : AluCode} (ht : t.wf = true) (code : BitVec 2) : aluCodeOf t (aluOpOf t code) = code := by
  simp only [AluCode.wf, Bool.and_eq_true, bne_iff_ne] at ht
  obtain ⟨⟨⟨⟨⟨h01, h10⟩, h11⟩, h01_10⟩, h01_11⟩, h10_11⟩ := ht
  rcases bits2_cases code with rfl | rfl | rfl | rfl
  · simp [aluOpOf, aluCodeOf]
  · simp [aluOpOf, aluCodeOf, h01]
  · simp [aluOpOf, aluCodeOf, h10, h01_10.symm]
  · simp [aluOpOf, aluCodeOf, h11, h01_11.symm, h10_11.symm]

theorem condCodeOf_condOf {t : CondCode} (ht : t.wf = true) (code : BitVec 2) : condCodeOf t (condOf t code) = code := by
  simp only [CondCode.wf, Bool.and_eq_true, bne_iff_ne] at ht
  obtain ⟨⟨⟨⟨⟨h00_01, h00_10⟩, h00_11⟩, h01_10⟩, h01_11⟩, h10_11⟩ := ht
  rcases bits2_cases code with rfl | rfl | rfl | rfl
  · simp [condOf, condCodeOf]
  · simp [condOf, condCodeOf, h00_01.symm]
  · simp [condOf, condCodeOf, h00_10.symm, h01_10.symm]
  · simp [condOf, condCodeOf, h00_11.symm, h01_11.symm, h10_11.symm]

/-- A table of the four codes that one side undoes is undone from the other, if its values have distinct default codes. -/
theorem rightInverse_of_defaultCode {α : Type} {ofCode : BitVec 2 → α} {toCode defaultCode : α → BitVec 2}
    (hdefault : Function.Injective defaultCode) (hleft : Function.LeftInverse toCode ofCode) :
    Function.RightInverse toCode ofCode := by
  have hcodes : Function.Surjective (defaultCode ∘ ofCode) :=
    Finite.injective_iff_surjective.1 (hdefault.comp hleft.injective)
  exact hleft.rightInverse_of_surjective (hcodes.of_comp_left hdefault)

theorem aluCodeOf_default_injective : Function.Injective (aluCodeOf defaultAluCode) :=
  Function.LeftInverse.injective (g := aluOpOf defaultAluCode) fun o => by cases o <;> rfl

theorem condCodeOf_default_injective : Function.Injective (condCodeOf defaultCondCode) :=
  Function.LeftInverse.injective (g := condOf defaultCondCode) fun c => by cases c <;> rfl

theorem aluOpOf_aluCodeOf {t : AluCode} (ht : t.wf = true) (o : AluOp) : aluOpOf t (aluCodeOf t o) = o :=
  rightInverse_of_defaultCode aluCodeOf_default_injective (aluCodeOf_aluOpOf ht) o

theorem condOf_condCodeOf {t : CondCode} (ht : t.wf = true) (c : Cond) : condOf t (condCodeOf t c) = c :=
  rightInverse_of_defaultCode condCodeOf_default_injective (condCodeOf_condOf ht) c

theorem Codes.wf_iff (k : Codes) : k.wf = true ↔ k.alu.wf = true ∧ k.cond.wf = true := by
  simp [Codes.wf]

/-! ### Instructions by format -/

theorem encodeWith_aluInstr (k : Codes) (o : AluOp) (rd rs : Reg) :
    encodeWith k (aluInstr o rd rs) = formatA (aluCodeOf k.alu o) rs rd := by
  cases o <;> rfl

theorem encodeWith_branchInstr (k : Codes) (c : Cond) (r : Reg) :
    encodeWith k (branchInstr c r) = formatS 0b1010#4 (condCodeOf k.cond c) r := by
  cases c <;> rfl

/-- The case split of an instruction by format: the four branches differ in their condition alone, the four ALU instructions in
their operation alone. -/
theorem instr_cases {motive : Instr → Prop} (movl : ∀ r imm4, motive (.movl r imm4))
    (movh : ∀ r imm4, motive (.movh r imm4)) (ld : ∀ r, motive (.ld r)) (st : ∀ r, motive (.st r))
    (branch : ∀ c r, motive (branchInstr c r)) (alu : ∀ o rd rs, motive (aluInstr o rd rs))
    (illegal : ∀ low, motive (.illegal low)) (i : Instr) : motive i := by
  cases i with
  | movl r imm4 => exact movl r imm4
  | movh r imm4 => exact movh r imm4
  | ld r => exact ld r
  | st r => exact st r
  | b r => exact branch .always r
  | beq r => exact branch .eq r
  | bne r => exact branch .ne r
  | bge r => exact branch .ge r
  | add rd rs => exact alu .add rd rs
  | sub rd rs => exact alu .sub rd rs
  | and rd rs => exact alu .and rd rs
  | or rd rs => exact alu .or rd rs
  | illegal low => exact illegal low

/-- Settles O1: the decode of the word of each format, with the code tables undone (30_encoding.md R61 to R64). -/
theorem decodeOfEncodeIsIdentity : Obligations.DecodeOfEncodeIsIdentity := by
  intro k i hk _
  obtain ⟨halu, hcond⟩ := (Codes.wf_iff k).1 hk
  induction i using instr_cases with
  | movl r imm4 => exact decodeWith_formatM_low k r imm4
  | movh r imm4 => exact decodeWith_formatM_high k r imm4
  | ld r => exact decodeWith_formatS_load k _ r
  | st r => exact decodeWith_formatS_store k _ r
  | branch c r => rw [encodeWith_branchInstr, decodeWith_formatS_branch, condOf_condCodeOf hcond]
  | alu o rd rs => rw [encodeWith_aluInstr, decodeWith_formatA, aluOpOf_aluCodeOf halu]
  | illegal low => exact decodeWith_illegalOpcode k low

/-! ### Encoding a decoded opcode -/

/-- Whether an opcode is one of LD or ST, whose bits `op[3:2]` the decoder ignores (30_encoding.md R68). -/
def hasIgnoredBits (op : Byte) : Prop := op.extractLsb' 4 4 = 0b1000#4 ∨ op.extractLsb' 4 4 = 0b1001#4

theorem hasIgnoredBits_iff (op : Byte) : hasIgnoredBits op ↔ extract op 0 4 = 0b1000#4 ∨ extract op 0 4 = 0b1001#4 := Iff.rfl

theorem formatS_and_mask (p : BitVec 4) (c : BitVec 2) (r : Reg) :
    formatS p c r &&& 0xF3#8 = formatS p 0b00#2 r := by
  calc formatS p c r &&& 0xF3#8
      = (p ++ c ++ regBits r) &&& (BitVec.allOnes 4 ++ 0b00#2 ++ BitVec.allOnes 2) := rfl
    _ = formatS p 0b00#2 r := by
      rw [BitVec.and_append, BitVec.and_append, BitVec.and_allOnes, BitVec.and_allOnes, BitVec.and_zero, formatS]

theorem encodeWith_decodeWith_of_not_ignored {k : Codes} (hk : k.wf = true) {op : Byte} (hop : ¬ hasIgnoredBits op) :
    encodeWith k (decodeWith k op) = op := by
  obtain ⟨halu, hcond⟩ := (Codes.wf_iff k).1 hk
  cases opcodeForm op with
  | moveLow r imm4 => rw [decodeWith_formatM_low]; rfl
  | moveHigh r imm4 => rw [decodeWith_formatM_high]; rfl
  | load c r => exact absurd (.inl (extract_formatS_group _ _ _)) hop
  | store c r => exact absurd (.inr (extract_formatS_group _ _ _)) hop
  | branch c r => rw [decodeWith_formatS_branch, encodeWith_branchInstr, condCodeOf_condOf hcond]
  | alu aop rs rd => rw [decodeWith_formatA, encodeWith_aluInstr, aluCodeOf_aluOpOf halu]
  | illegal low => rw [decodeWith_illegalOpcode]; rfl

/-- The words of LD and ST, each with any ignored bits. -/
theorem exists_formatS_of_ignored {op : Byte} (hop : hasIgnoredBits op) :
    ∃ c r, op = formatS 0b1000#4 c r ∨ op = formatS 0b1001#4 c r := by
  refine ⟨extract op 4 2, regOfBits (extract op 6 2), ?_⟩
  rcases (hasIgnoredBits_iff op).1 hop with hgroup | hgroup
  · exact .inl (by rw [← hgroup, formatS_extract])
  · exact .inr (by rw [← hgroup, formatS_extract])

/-- Settles O2: LD and ST come back with the ignored bits as 00, every other opcode as it was (30_encoding.md R68). -/
theorem encodeOfDecodeIsCanonicalOpcode : Obligations.EncodeOfDecodeIsCanonicalOpcode := by
  intro k op hk
  split
  · next hop =>
    obtain ⟨c, r, rfl | rfl⟩ := exists_formatS_of_ignored hop
    · rw [decodeWith_formatS_load, formatS_and_mask]; rfl
    · rw [decodeWith_formatS_store, formatS_and_mask]; rfl
  · next hop => exact encodeWith_decodeWith_of_not_ignored hk hop

/-! ### The opcode table -/

/-- An instruction's encoding is in the one row of its mnemonic, by the law of its constructor. -/
theorem rowMatch (i : Instr) : Laws.RowMatch.Statement i := by
  cases i with
  | movl r imm4 => exact Laws.RowMatch.movl r imm4
  | movh r imm4 => exact Laws.RowMatch.movh r imm4
  | ld r => exact Laws.RowMatch.ld r
  | st r => exact Laws.RowMatch.st r
  | b r => exact Laws.RowMatch.b r
  | beq r => exact Laws.RowMatch.beq r
  | bne r => exact Laws.RowMatch.bne r
  | bge r => exact Laws.RowMatch.bge r
  | add rd rs => exact Laws.RowMatch.add rd rs
  | sub rd rs => exact Laws.RowMatch.sub rd rs
  | and rd rs => exact Laws.RowMatch.and rd rs
  | or rd rs => exact Laws.RowMatch.or rd rs
  | illegal low => exact Laws.RowMatch.illegal low

/-- The ignored bits of LD and ST are in no row's mask. -/
theorem rowsOf_load (c : BitVec 2) (r : Reg) : rowsOf (formatS 0b1000#4 c r) = rowsOf (formatS 0b1000#4 0b00#2 r) := by
  revert c; cases r <;> decide

theorem rowsOf_store (c : BitVec 2) (r : Reg) : rowsOf (formatS 0b1001#4 c r) = rowsOf (formatS 0b1001#4 0b00#2 r) := by
  revert c; cases r <;> decide

/-- Settles O3: the rows of an opcode are those of its canonical form, which is the encoding of an instruction. -/
theorem everyOpcodeHasOneTableRow : Obligations.EveryOpcodeHasOneTableRow := by
  intro op
  by_cases hop : hasIgnoredBits op
  · obtain ⟨c, r, rfl | rfl⟩ := exists_formatS_of_ignored hop
    · rw [decode, decodeWith_formatS_load, rowsOf_load]; exact rowMatch (.ld r)
    · rw [decode, decodeWith_formatS_store, rowsOf_store]; exact rowMatch (.st r)
  · have hencode : encode (decode op) = op := encodeWith_decodeWith_of_not_ignored rfl hop
    have hrow := rowMatch (decode op)
    rwa [Laws.RowMatch.Statement, hencode] at hrow

theorem decodeTableWord_byte (op : Byte) : decodeTableWord 8 op.toNat = some (decode op) := by
  have hbytes : wordBytes 8 op.toNat = [op] := by
    have hop : BitVec.ofNat 8 (op.toNat % 256) = op := by rw [Nat.mod_eq_of_lt op.isLt, BitVec.ofNat_toNat, BitVec.setWidth_eq]
    simpa [wordBytes, List.range_succ] using hop
  rw [decodeTableWord, hbytes]; rfl

/-- Settles O4: each written-out opcode is a word of its format, and the two words with ignored bits set are words of LD and
ST. -/
theorem writtenOutOpcodesDecode : Obligations.WrittenOutOpcodesDecode := by
  have hload : decode 0x8C#8 = .ld .r0 := decodeWith_formatS_load defaultCodes 0b11#2 .r0
  have hstore : decode 0x96#8 = .st .r2 := decodeWith_formatS_store defaultCodes 0b01#2 .r2
  exact ⟨decodeWith_formatM_low defaultCodes .r1 3#4, decodeWith_formatM_high defaultCodes .r1 10#4,
    decodeWith_formatS_load defaultCodes 0b00#2 .r0, decodeWith_formatS_store defaultCodes 0b00#2 .r0,
    decodeWith_formatS_branch defaultCodes 0b00#2 .r3, decodeWith_formatS_branch defaultCodes 0b01#2 .r3,
    decodeWith_formatS_branch defaultCodes 0b10#2 .r0, decodeWith_formatS_branch defaultCodes 0b11#2 .r3,
    decodeWith_formatA defaultCodes 0b00#2 .r0 .r1, decodeWith_formatA defaultCodes 0b01#2 .r2 .r1,
    decodeWith_formatA defaultCodes 0b10#2 .r1 .r2, decodeWith_formatA defaultCodes 0b11#2 .r2 .r1,
    decodeWith_illegalOpcode defaultCodes 7#4, hload ▸ decodeTableWord_byte 0x8C#8, hstore ▸ decodeTableWord_byte 0x96#8⟩

end Sys2Proof
end

section
/-! What each instruction does, by format: the equations of `exec`, and the inversion that says once everything an instruction can
do to a state. -/

namespace Sys2Proof.Machine

open Sys2Proof.Safety

/-! ### The equations of `exec` -/

theorem exec_ld (r : Reg) (s : State) :
    exec (.ld r) s = .next (withDataAccess (readReg s r) (fun a t => writeReg r (t.mem.read a) t) s) := rfl

theorem exec_st (r : Reg) (s : State) :
    exec (.st r) s = .next (withDataAccess (readReg s .r0) (fun a t => writeMem a (readReg t r) t) s) := rfl

theorem exec_branchInstr (c : Cond) (r : Reg) (s : State) :
    exec (branchInstr c r) s = .next (branchTo (condHolds c s.zf s.sf) r s) := by
  cases c <;> rfl

theorem exec_aluInstr (o : AluOp) (rd rs : Reg) (s : State) :
    exec (aluInstr o rd rs) s = .next (aluStep o rd rs s) := by
  cases o <;> rfl

theorem exec_illegal (low : Nibble) (s : State) :
    exec (.illegal low) s = .next (raise .decodeError (illegalOpcode low) s) := rfl

theorem withDataAccess_of_some {addr : Byte} {access : Nat → State → State} {s : State} {a : Nat}
    (ha : effectiveAddress s.cfg.oobPolicy addr = some a) : withDataAccess addr access s = advance (access a s) := by
  rw [withDataAccess, ha]

theorem withDataAccess_of_none {addr : Byte} {access : Nat → State → State} {s : State}
    (ha : effectiveAddress s.cfg.oobPolicy addr = none) : withDataAccess addr access s = raise .boundsError addr s := by
  rw [withDataAccess, ha]

theorem exec_ld_of_cell {r : Reg} {s : State} {a : Nat} (ha : effectiveAddress s.cfg.oobPolicy (readReg s r) = some a) :
    exec (.ld r) s = .next (advance (writeReg r (s.mem.read a) s)) := by
  rw [exec_ld, withDataAccess_of_some ha]

theorem exec_st_of_cell {r : Reg} {s : State} {a : Nat}
    (ha : effectiveAddress s.cfg.oobPolicy (readReg s .r0) = some a) :
    exec (.st r) s = .next (advance (writeMem a (readReg s r) s)) := by
  rw [exec_st, withDataAccess_of_some ha]

theorem exec_ld_of_no_cell {r : Reg} {s : State} (ha : effectiveAddress s.cfg.oobPolicy (readReg s r) = none) :
    exec (.ld r) s = .next (raise .boundsError (readReg s r) s) := by
  rw [exec_ld, withDataAccess_of_none ha]

theorem exec_st_of_no_cell {r : Reg} {s : State} (ha : effectiveAddress s.cfg.oobPolicy (readReg s .r0) = none) :
    exec (.st r) s = .next (raise .boundsError (readReg s .r0) s) := by
  rw [exec_st, withDataAccess_of_none ha]

/-! ### The classes of instructions -/

@[simp] theorem isAlu_aluInstr (o : AluOp) (rd rs : Reg) : isAlu (aluInstr o rd rs) = true := by cases o <;> rfl
@[simp] theorem isAlu_branchInstr (c : Cond) (r : Reg) : isAlu (branchInstr c r) = false := by cases c <;> rfl

@[simp] theorem destination_aluInstr (o : AluOp) (rd rs : Reg) : destination (aluInstr o rd rs) = some rd := by
  cases o <;> rfl

@[simp] theorem takenTarget_aluInstr (o : AluOp) (rd rs : Reg) (s : State) : takenTarget (aluInstr o rd rs) s = none := by
  cases o <;> rfl

theorem takenTarget_branchInstr (c : Cond) (r : Reg) (s : State) :
    takenTarget (branchInstr c r) s = if condHolds c s.zf s.sf = true then some (readReg s r) else none := by
  cases c with
  | always => rfl
  | eq => rfl
  | ne => simp [branchInstr, takenTarget, condHolds]
  | ge => simp [branchInstr, takenTarget, condHolds]

/-! ### What a branch and an ALU operation do to each field -/

@[simp] theorem branchTo_pc (taken : Bool) (r : Reg) (s : State) :
    (branchTo taken r s).pc = if taken = true then readReg s r else s.pc + 1#8 := by cases taken <;> rfl
@[simp] theorem branchTo_mem (taken : Bool) (r : Reg) (s : State) : (branchTo taken r s).mem = s.mem := by cases taken <;> rfl
@[simp] theorem branchTo_zf (taken : Bool) (r : Reg) (s : State) : (branchTo taken r s).zf = s.zf := by cases taken <;> rfl
@[simp] theorem branchTo_sf (taken : Bool) (r : Reg) (s : State) : (branchTo taken r s).sf = s.sf := by cases taken <;> rfl
@[simp] theorem branchTo_fault (taken : Bool) (r : Reg) (s : State) : (branchTo taken r s).fault = s.fault := by
  cases taken <;> rfl
@[simp] theorem branchTo_cfg (taken : Bool) (r : Reg) (s : State) : (branchTo taken r s).cfg = s.cfg := by cases taken <;> rfl
@[simp] theorem readReg_branchTo (taken : Bool) (r : Reg) (s : State) (q : Reg) :
    readReg (branchTo taken r s) q = readReg s q := by cases taken <;> rfl

theorem zeroFlag_iff (v : Byte) : zeroFlag v = true ↔ v = 0#8 := beq_iff_eq

theorem signFlag_eq (v : Byte) : signFlag v = v.getLsbD 7 := (BitVec.getLsbD_eq_extractLsb' v 7).symm

/-- The minuend of SUB in each order (43_alu.md R123). -/
@[simp] theorem alu_sub_rdMinusRs (a b : Byte) : alu .rdMinusRs .sub a b = a - b := rfl
@[simp] theorem alu_sub_rsMinusRd (a b : Byte) : alu .rsMinusRd .sub a b = b - a := rfl

theorem readReg_aluStep_same (o : AluOp) (rd rs : Reg) (s : State) :
    readReg (aluStep o rd rs s) rd = alu s.cfg.subOrder o (readReg s rd) (readReg s rs) := by
  simp [aluStep]

@[simp] theorem aluStep_zf (o : AluOp) (rd rs : Reg) (s : State) :
    (aluStep o rd rs s).zf = zeroFlag (readReg (aluStep o rd rs s) rd) := by
  rw [readReg_aluStep_same]; rfl

@[simp] theorem aluStep_sf (o : AluOp) (rd rs : Reg) (s : State) :
    (aluStep o rd rs s).sf = signFlag (readReg (aluStep o rd rs s) rd) := by
  rw [readReg_aluStep_same]; rfl

theorem readReg_aluStep_other (o : AluOp) {rd q : Reg} (rs : Reg) (s : State) (h : q ≠ rd) :
    readReg (aluStep o rd rs s) q = readReg s q := by
  simp [aluStep, readReg_writeReg_other _ _ h]

/-! ### Everything an instruction can do -/

/-- The outcomes of an instruction in a state: one register replaced (Move, LD), one cell stored (ST), a branch, an ALU
operation, or a fault taken with nothing but the latch changed (44_execution_step.md R140 to R148). -/
inductive Effect (s : State) : Instr → State → Prop
  | replace (i : Instr) (r : Reg) (v : Byte) (hdest : destination i = some r) (halu : isAlu i = false) :
      Effect s i (advance (writeReg r v s))
  | store (r : Reg) (a : Nat) (haddr : effectiveAddress s.cfg.oobPolicy (readReg s .r0) = some a) :
      Effect s (.st r) (advance (writeMem a (readReg s r) s))
  | branch (c : Cond) (r : Reg) : Effect s (branchInstr c r) (branchTo (condHolds c s.zf s.sf) r s)
  | alu (o : AluOp) (rd rs : Reg) : Effect s (aluInstr o rd rs) (aluStep o rd rs s)
  | decodeFault (low : Nibble) : Effect s (.illegal low) (raise .decodeError (illegalOpcode low) s)
  | boundsFault (i : Instr) (addr : Byte) (hpolicy : s.cfg.oobPolicy = .fault) (hrange : memSize ≤ addr.toNat)
      (haddr : dataAddress i s = some addr) : Effect s i (raise .boundsError addr s)

/-- The inversion of `exec`. -/
theorem effect_of_exec {i : Instr} {s t : State} (h : exec i s = .next t) : Effect s i t := by
  induction i using instr_cases with
  | movl r imm4 => rw [exec_movl] at h; cases h; exact .replace _ _ _ rfl rfl
  | movh r imm4 => rw [exec_movh] at h; cases h; exact .replace _ _ _ rfl rfl
  | ld r =>
    rw [exec_ld] at h; cases h
    rcases withDataAccess_cases (readReg s r) (fun a t => writeReg r (t.mem.read a) t) s with
      ⟨a, -, heq⟩ | ⟨hpolicy, hrange, heq⟩ <;> rw [heq]
    · exact .replace _ _ _ rfl rfl
    · exact .boundsFault _ _ hpolicy hrange rfl
  | st r =>
    rw [exec_st] at h; cases h
    rcases withDataAccess_cases (readReg s .r0) (fun a t => writeMem a (readReg t r) t) s with
      ⟨a, haddr, heq⟩ | ⟨hpolicy, hrange, heq⟩ <;> rw [heq]
    · exact .store r a haddr
    · exact .boundsFault _ _ hpolicy hrange rfl
  | branch c r => rw [exec_branchInstr] at h; cases h; exact .branch c r
  | alu o rd rs => rw [exec_aluInstr] at h; cases h; exact .alu o rd rs
  | illegal low => rw [exec_illegal] at h; cases h; exact .decodeFault low

/-- What an instruction does to the latch: nothing, or it takes one of the two faults for the reason the spec gives
(60_exceptions.md R182, R183). -/
theorem fault_of_exec {i : Instr} {s t : State} (h : exec i s = .next t) :
    t.fault = s.fault ∨
    (∃ low, i = .illegal low ∧ t = raise .decodeError (illegalOpcode low) s) ∨
    (∃ addr, s.cfg.oobPolicy = .fault ∧ memSize ≤ addr.toNat ∧ dataAddress i s = some addr ∧
      t = raise .boundsError addr s) := by
  cases effect_of_exec h with
  | replace | store | alu => exact .inl rfl
  | branch c r => exact .inl (branchTo_fault _ r s)
  | decodeFault low => exact .inr (.inl ⟨low, rfl, rfl⟩)
  | boundsFault i addr hpolicy hrange haddr => exact .inr (.inr ⟨addr, hpolicy, hrange, haddr, rfl⟩)

end Sys2Proof.Machine
end

section
/-! The instructions one by one: Move pairs (40_move.md), LD and ST (41_load_store.md), the branches (42_branch.md) and the ALU
(43_alu.md), each with its effect and its frame. -/

namespace Sys2Proof.Machine

open Sys2Proof.Safety

/-! ### Move pairs -/

theorem extractLsb'_append_high (hi lo : Nibble) : (hi ++ lo).extractLsb' 4 4 = hi := BitVec.extractLsb'_append_eq_left

theorem extractLsb'_append_low (hi lo : Nibble) : (hi ++ lo).extractLsb' 0 4 = lo := BitVec.extractLsb'_append_eq_right

/-- What two steps in a row keep, each of which keeps all but one register and `pc`. -/
theorem frame_trans {r : Reg} {s t u : State}
    (hst : regsKeptBut r s t ∧ memKept s t ∧ flagsKept s t ∧ restKept s t)
    (htu : regsKeptBut r t u ∧ memKept t u ∧ flagsKept t u ∧ restKept t u) :
    regsKeptBut r s u ∧ memKept s u ∧ flagsKept s u ∧ restKept s u := by
  obtain ⟨hregs, hmem, ⟨hzf, hsf⟩, hfault, hcfg⟩ := hst
  obtain ⟨hregs', hmem', ⟨hzf', hsf'⟩, hfault', hcfg'⟩ := htu
  exact ⟨fun q hq => (hregs' q hq).trans (hregs q hq), fun a => (hmem' a).trans (hmem a),
    ⟨hzf'.trans hzf, hsf'.trans hsf⟩, hfault'.trans hfault, hcfg'.trans hcfg⟩

/-- Settles O10: the second Move keeps the nibble the first one wrote (40_move.md R93). -/
theorem movePairBuildsAnyByte : Obligations.MovePairBuildsAnyByte := by
  intro r lo hi s
  constructor
  · obtain ⟨t, hexec, hreg, -, hframe⟩ := (movlReplacesLowNibble r lo).2 s
    obtain ⟨u, hexec', hreg', -, hframe'⟩ := (movhReplacesHighNibble r hi).2 t
    rw [hreg, extractLsb'_append_low] at hreg'
    exact ⟨t, u, hexec, hexec', hreg', frame_trans hframe hframe'⟩
  · obtain ⟨t, hexec, hreg, -, hframe⟩ := (movhReplacesHighNibble r hi).2 s
    obtain ⟨u, hexec', hreg', -, hframe'⟩ := (movlReplacesLowNibble r lo).2 t
    rw [hreg, extractLsb'_append_high] at hreg'
    exact ⟨t, u, hexec, hexec', hreg', frame_trans hframe hframe'⟩

/-! ### Load and Store -/

/-- Where an address is admitted, the cell it names is the address mod the number of cells (20_memory.md R45). -/
theorem effectiveAddress_of_admitted {p : OobPolicy} {addr : Byte} (h : p = .wrap ∨ addr.toNat < 10) :
    effectiveAddress p addr = some (addr.toNat % 10) := by
  unfold effectiveAddress
  split
  · next hlt => rw [Nat.mod_eq_of_lt hlt]
  · next hge =>
    rcases h with rfl | hlt
    · rfl
    · exact absurd hlt hge

/-- Settles O11: with its cell known, LD is one register write and the advance (41_load_store.md R100). -/
theorem ldReplacesRegisterByCell : Obligations.LdReplacesRegisterByCell := fun _ _ hadmitted =>
  exec_effect_of_advance_writeReg (exec_ld_of_cell (effectiveAddress_of_admitted hadmitted))

/-- Settles O12: with its cell known, ST is one memory write and the advance (41_load_store.md R101). -/
theorem stStoresThroughRegisterZero : Obligations.StStoresThroughRegisterZero := by
  intro r s hadmitted
  have hcell := effectiveAddress_of_admitted hadmitted
  exact ⟨_, _, exec_st_of_cell hcell, hcell, rfl, by simp, fun b hb => read_write_other _ _ hb, rfl, fun _ => rfl,
    ⟨rfl, rfl⟩, ⟨rfl, rfl⟩⟩

/-- A fault is taken precisely by the operation that raises it (60_exceptions.md R186). -/
theorem faultTaken_raise (c : FaultCause) (v : Byte) (s : State) : faultTaken c v s (raise c v s) :=
  ⟨rfl, rfl, fun _ => rfl, fun _ => rfl, ⟨rfl, rfl⟩, rfl⟩

/-- With a fault latched no step exists (44_execution_step.md R141). -/
theorem step_of_fault {s : State} {f : FaultRecord} (h : s.fault = some f) : step s = .fault .faulted := by
  simp [step, haltTest, h]

/-- Where `pc` is past the memory and no fault is latched the machine is halted (44_execution_step.md R144). -/
theorem step_of_past_end {s : State} (hfault : s.fault = none) (hpc : memSize ≤ s.pc.toNat) : step s = .fault .halted := by
  simp [step, haltTest, hfault, hpc]

theorem step_raise (c : FaultCause) (v : Byte) (s : State) : step (raise c v s) = .fault .faulted :=
  step_of_fault (raise_fault c v s)

/-- Settles O13: an address that names no cell raises, and under `wrap` no instruction has such an address
(60_exceptions.md R183). -/
theorem outOfRangeAccessTakesBoundsError : Obligations.OutOfRangeAccessTakesBoundsError := by
  refine ⟨fun r s hpolicy hrange => ?ld, fun r s hpolicy hrange => ?st, fun i s t hpolicy hnone hexec v => ?wrap⟩
  case ld =>
    exact ⟨_, exec_ld_of_no_cell (effectiveAddress_eq_none.2 ⟨hpolicy, hrange⟩), faultTaken_raise _ _ s, step_raise _ _ s⟩
  case st =>
    exact ⟨_, exec_st_of_no_cell (effectiveAddress_eq_none.2 ⟨hpolicy, hrange⟩), faultTaken_raise _ _ s, step_raise _ _ s⟩
  case wrap =>
    rcases fault_of_exec hexec with hkept | ⟨low, -, rfl⟩ | ⟨addr, hfault, -⟩
    · rw [hkept, hnone]; simp
    · simp
    · rw [hpolicy] at hfault; cases hfault

/-- Settles O14: the load finds the cell the store wrote, since ST keeps every register (41_load_store.md R103). -/
theorem storeThenLoadRoundTrips : Obligations.StoreThenLoadRoundTrips := by
  intro r q s a hstore hload
  have hload' : effectiveAddress (advance (writeMem a (readReg s r) s)).cfg.oobPolicy
      (readReg (advance (writeMem a (readReg s r) s)) q) = some a := hload
  exact ⟨_, _, exec_st_of_cell hstore, exec_ld_of_cell hload', by simp⟩

/-- Settles O15: the fetch reads the cell the store wrote (20_memory.md R52). -/
theorem storedByteIsTheNextFetch : Obligations.StoredByteIsTheNextFetch := by
  intro r s t u a hexec haddr hmem hcfg hpc
  rw [exec_st_of_cell haddr] at hexec
  cases hexec
  have hfetch : fetch u = readReg s r := by rw [fetch, hmem, hpc]; simp
  rw [decodeNext, hfetch, hcfg]; rfl

/-! ### Branches -/

/-- The effect and the whole frame of a branch, whatever its condition (42_branch.md R110). -/
theorem exec_branchInstr_effect (c : Cond) (r : Reg) (s : State) :
    ∃ t, exec (branchInstr c r) s = .next t ∧
      t.pc = (if condHolds c s.zf s.sf = true then readReg s r else s.pc + 1#8) ∧
      regsKept s t ∧ memKept s t ∧ flagsKept s t ∧ restKept s t := by
  have hmem : memKept s (branchTo (condHolds c s.zf s.sf) r s) := fun a => by rw [branchTo_mem]
  exact ⟨_, exec_branchInstr c r s, branchTo_pc _ r s, readReg_branchTo _ r s, hmem,
    ⟨branchTo_zf _ r s, branchTo_sf _ r s⟩, ⟨branchTo_fault _ r s, branchTo_cfg _ r s⟩⟩

/-- Settles O16: the branch whose condition always holds (42_branch.md R111). -/
theorem branchAlwaysGoesToTarget : Obligations.BranchAlwaysGoesToTarget := fun r s =>
  exec_branchInstr_effect .always r s

/-- Settles O17: the branch with each of the three conditions on the flags (42_branch.md R112 to R114). -/
theorem conditionalBranchesFollowTheFlags : Obligations.ConditionalBranchesFollowTheFlags := by
  intro r s
  refine ⟨exec_branchInstr_effect .eq r s, ?_, ?_⟩
  · simpa [branchInstr, condHolds] using exec_branchInstr_effect .ne r s
  · simpa [branchInstr, condHolds] using exec_branchInstr_effect .ge r s

/-- A taken branch is the write of its target to `pc`. -/
theorem exec_of_takenTarget {i : Instr} {s : State} {target : Byte} (h : takenTarget i s = some target) :
    exec i s = .next (writePc target s) := by
  induction i using instr_cases with
  | movl r imm4 => cases h
  | movh r imm4 => cases h
  | ld r => cases h
  | st r => cases h
  | branch c r =>
    rw [takenTarget_branchInstr, Option.ite_none_right_eq_some, Option.some_inj] at h
    obtain ⟨hholds, rfl⟩ := h
    rw [exec_branchInstr, hholds]; rfl
  | alu o rd rs => rw [takenTarget_aluInstr] at h; cases h
  | illegal low => cases h

/-- Settles O18: writing `pc` to itself gives the state back, and past the memory the halt test stops the machine
(42_branch.md R115). -/
theorem selfBranchLoopsAndFarBranchHalts : Obligations.SelfBranchLoopsAndFarBranchHalts := by
  intro i s target htaken
  rw [exec_of_takenTarget htaken]
  constructor
  · rintro rfl; rfl
  · intro hfar hnone
    exact ⟨_, rfl, rfl, hnone, by simp [halted, hnone, hfar], step_of_past_end hnone hfar⟩

/-! ### The ALU -/

/-- The effect and the whole frame of an ALU instruction, whatever its operation (43_alu.md R120, R121). -/
theorem exec_aluInstr_effect (o : AluOp) (rd rs : Reg) (s : State) :
    ∃ t, exec (aluInstr o rd rs) s = .next t ∧
      readReg t rd = alu s.cfg.subOrder o (readReg s rd) (readReg s rs) ∧
      (t.zf = true ↔ readReg t rd = 0#8) ∧ t.sf = (readReg t rd).getLsbD 7 ∧ t.pc = s.pc + 1#8 ∧
      regsKeptBut rd s t ∧ memKept s t ∧ restKept s t := by
  refine ⟨_, exec_aluInstr o rd rs s, readReg_aluStep_same o rd rs s, ?_, ?_, rfl, ?_, fun _ => rfl, ⟨rfl, rfl⟩⟩
  · rw [aluStep_zf, zeroFlag_iff]
  · rw [aluStep_sf, signFlag_eq]
  · exact fun q hq => readReg_aluStep_other o rs s hq

/-- Settles O19: format A with code 00, which every table gives to ADD, and the sum of bytes as numbers (43_alu.md R122). -/
theorem addLeavesSumAndFlags : Obligations.AddLeavesSumAndFlags := by
  intro rd rs
  refine ⟨fun k => ?_, fun s => ?_⟩
  · have hopcode : 0b1100#4 ++ regBits rs ++ regBits rd = formatA 0b00#2 rs rd := rfl
    rw [hopcode, decodeWith_formatA]; rfl
  · obtain ⟨t, hexec, hresult, hframe⟩ := exec_aluInstr_effect .add rd rs s
    exact ⟨t, hexec, by rw [hresult, alu, BitVec.toNat_add], hframe⟩

/-- A difference of bytes as a number: the integer difference mod 256. -/
theorem toNat_sub_eq_emod (a b : Byte) : ((a - b).toNat : Int) = ((a.toNat : Int) - b.toNat) % 256 := by
  rw [BitVec.toNat_sub]; omega

/-- Settles O20: either order is a difference of bytes as numbers (43_alu.md R123). -/
theorem subLeavesDifferenceAndFlags : Obligations.SubLeavesDifferenceAndFlags := by
  intro rd rs s
  obtain ⟨t, hexec, hresult, hframe⟩ := exec_aluInstr_effect .sub rd rs s
  refine ⟨t, hexec, fun horder => ?_, fun horder => ?_, hframe⟩
  · rw [hresult, horder, alu_sub_rdMinusRs]; exact toNat_sub_eq_emod _ _
  · rw [hresult, horder, alu_sub_rsMinusRd]; exact toNat_sub_eq_emod _ _

/-- Settles O21: both results are bit by bit (43_alu.md R124, R125). -/
theorem andOrLeaveBitwiseResultAndFlags : Obligations.AndOrLeaveBitwiseResultAndFlags := by
  intro rd rs s
  constructor
  · obtain ⟨t, hexec, hresult, hframe⟩ := exec_aluInstr_effect .and rd rs s
    exact ⟨t, hexec, fun n _ => by rw [hresult, alu, BitVec.getLsbD_and], hframe⟩
  · obtain ⟨t, hexec, hresult, hframe⟩ := exec_aluInstr_effect .or rd rs s
    exact ⟨t, hexec, fun n _ => by rw [hresult, alu, BitVec.getLsbD_or], hframe⟩

theorem alu_sub_eq_zero_iff (order : SubOrder) (a b : Byte) : alu order .sub a b = 0#8 ↔ a = b := by
  cases order with
  | rdMinusRs => exact sub_eq_zero
  | rsMinusRd => exact sub_eq_zero.trans eq_comm

/-- The sign bit of a difference of bytes is that of the wrapped signed difference. -/
theorem sub_getLsbD_seven_eq_false_iff (a b : Byte) :
    (a - b).getLsbD 7 = false ↔ 0 ≤ (a.toInt - b.toInt).bmod 256 := by
  have hmsb : (a - b).getLsbD 7 = decide ((a - b).toInt < 0) := (BitVec.msb_eq_getLsbD_last _).symm.trans BitVec.msb_eq_toInt
  rw [hmsb, decide_eq_false_iff_not, not_lt, BitVec.toInt_sub]

/-- The sign of a wrapped difference of two bytes: that of the difference if it fits a byte, the other one if not. -/
theorem bmod_nonneg_iff {d : Int} (hlow : -256 < d) (hhigh : d < 256) :
    ((-128 ≤ d ∧ d ≤ 127) → (0 ≤ d.bmod 256 ↔ 0 ≤ d)) ∧
    (¬ (-128 ≤ d ∧ d ≤ 127) → (0 ≤ d.bmod 256 ↔ d < 0)) := by
  simp only [Int.bmod_def, Nat.cast_ofNat]
  split <;> omega

/-- Settles O23: a difference is zero only of equal bytes, and a signed difference that does not fit a byte is off by 256
(42_branch.md R117). -/
theorem subFlagsCompareOperands : Obligations.SubFlagsCompareOperands := by
  intro rd rs s t hexec
  obtain ⟨t', hexec', hresult, hzf, hsf, -⟩ := exec_aluInstr_effect .sub rd rs s
  obtain rfl : t' = t := by
    have := hexec'.symm.trans hexec
    cases this; rfl
  refine ⟨by rw [hzf, hresult, alu_sub_eq_zero_iff], fun horder => ?_⟩
  have hsign : t'.sf = false ↔ 0 ≤ ((readReg s rd).toInt - (readReg s rs).toInt).bmod 256 := by
    rw [hsf, hresult, horder, alu_sub_rdMinusRs]; exact sub_getLsbD_seven_eq_false_iff _ _
  have hrd := BitVec.toInt_lt (x := readReg s rd)
  have hrd' := BitVec.le_toInt (readReg s rd)
  have hrs := BitVec.toInt_lt (x := readReg s rs)
  have hrs' := BitVec.le_toInt (readReg s rs)
  obtain ⟨hfits, hoverflows⟩ := bmod_nonneg_iff (d := (readReg s rd).toInt - (readReg s rs).toInt) (by omega) (by omega)
  exact ⟨fun h => (hsign.trans (hfits h)).trans Int.sub_nonneg, fun h => (hsign.trans (hoverflows h)).trans sub_neg⟩

end Sys2Proof.Machine
end

section
/-! The whole step (44_execution_step.md): where it exists it is one instruction, and what holds of every instruction holds of it.
Faults are precise, the frames of R148 hold, and the invariant is kept. -/

namespace Sys2Proof.Machine

open Sys2Proof.Safety

/-! ### Where a step exists -/

theorem step_of_running {s : State} (hfault : s.fault = none) (hpc : s.pc.toNat < memSize) :
    step s = exec (decodeNext s) s := by
  rw [step, haltTest_eq_none.2 ⟨hfault, hpc⟩]

/-- The inversion of `step`. -/
theorem exec_of_step {s t : State} (h : step s = .next t) :
    s.fault = none ∧ s.pc.toNat < memSize ∧ exec (decodeNext s) s = .next t := by
  obtain ⟨hfault, hpc⟩ := (step_exists_next_iff s).1 ⟨t, h⟩
  exact ⟨hfault, hpc, by rw [← step_of_running hfault hpc, h]⟩

/-- Settles O5: the halt test lets the step through, and the step is `exec` (44_execution_step.md R140). -/
theorem stepRunsDecodedInstruction : Obligations.StepRunsDecodedInstruction := by
  intro s i hfault hpc _ hdecode
  have hnext : decodeNext s = i := hdecode
  rw [step_of_running hfault hpc, hnext]

/-- No instruction stops the machine, so a stop is always the halt test's. -/
theorem step_eq_fault_iff (s : State) (why : Fault) : step s = .fault why ↔ haltTest s = some why := by
  rcases step_cases s with ⟨why', hhalt, hstep⟩ | ⟨hhalt, hstep⟩
  · simp [hhalt, hstep]
  · obtain ⟨t, hexec⟩ := exec_exists_next (decodeNext s) s
    simp [hhalt, hstep, hexec]

theorem halted_iff_haltTest (s : State) : halted s = true ↔ haltTest s = some .halted := by
  unfold haltTest halted
  cases s.fault <;> simp

theorem faulted_iff_haltTest (s : State) : faulted s = true ↔ haltTest s = some .faulted := by
  unfold haltTest faulted
  cases s.fault <;> simp

/-- Settles O7: the outputs are the halt test's two answers, and the cause code is read off the latch
(60_exceptions.md R181). -/
theorem hostOutputsNameTheStop : Obligations.HostOutputsNameTheStop := by
  intro s
  refine ⟨?_, ?_, ?_, ?_⟩
  · rw [halted_iff_haltTest, step_eq_fault_iff]
  · rw [faulted_iff_haltTest, step_eq_fault_iff]
  · rw [halted_iff_haltTest, faulted_iff_haltTest]
    rintro ⟨hhalted, hfaulted⟩
    rw [hhalted] at hfaulted; cases hfaulted
  · rcases hlatch : s.fault with _ | ⟨_ | _, v⟩ <;> simp [faultCode, faultInfo, hlatch]

/-! ### Faults -/

/-- Settles O25: the illegal instruction is the raise of its own opcode (60_exceptions.md R182). -/
theorem illegalInstructionLatchesItsOpcode : Obligations.IllegalInstructionLatchesItsOpcode := fun low s =>
  ⟨_, exec_illegal low s, faultTaken_raise _ _ s⟩

theorem aluInstr_ne_illegal (o : AluOp) (rd rs : Reg) (low : Nibble) : aluInstr o rd rs ≠ .illegal low := by
  cases o <;> exact Instr.noConfusion

theorem branchInstr_ne_illegal (c : Cond) (r : Reg) (low : Nibble) : branchInstr c r ≠ .illegal low := by
  cases c <;> exact Instr.noConfusion

/-- The illegal opcodes are the words of the illegal range, under every code table (30_encoding.md R71). -/
theorem decodeWith_eq_illegal_iff (k : Codes) (op : Byte) (low : Nibble) :
    decodeWith k op = .illegal low ↔ op = illegalOpcode low := by
  refine ⟨fun h => ?_, fun h => h ▸ decodeWith_illegalOpcode k low⟩
  cases opcodeForm op with
  | moveLow r imm4 => rw [decodeWith_formatM_low] at h; cases h
  | moveHigh r imm4 => rw [decodeWith_formatM_high] at h; cases h
  | load c r => rw [decodeWith_formatS_load] at h; cases h
  | store c r => rw [decodeWith_formatS_store] at h; cases h
  | branch c r => rw [decodeWith_formatS_branch] at h; exact absurd h (branchInstr_ne_illegal _ _ _)
  | alu aop rs rd => rw [decodeWith_formatA] at h; exact absurd h (aluInstr_ne_illegal _ _ _ _)
  | illegal low' => rw [decodeWith_illegalOpcode] at h; cases h; rfl

theorem illegalOpcode_of_group {op : Byte} (hgroup : op.extractLsb' 4 4 = 0b1011#4) :
    op = illegalOpcode (op.extractLsb' 0 4) := (illegalOpcode_extract hgroup).symm

theorem illegalOpcode_group (low : Nibble) : (illegalOpcode low).extractLsb' 4 4 = 0b1011#4 :=
  extract_illegalOpcode_group low

theorem fetch_of_decodeNext_illegal {s : State} {low : Nibble} (h : decodeNext s = .illegal low) :
    fetch s = illegalOpcode low := (decodeWith_eq_illegal_iff _ _ _).1 h

theorem pausePoint_of_illegal {s : State} {low : Nibble} (h : decodeNext s = .illegal low) : pausePoint s = none := by
  unfold pausePoint
  rw [h]
  cases s.cfg.debugEn <;> cases haltTest s <;> rfl

/-- Settles O24: the decoder's verdict by format, the raise it leads to, and that no other instruction raises DecodeError
(60_exceptions.md R182). -/
theorem illegalOpcodesTakeDecodeError : Obligations.IllegalOpcodesTakeDecodeError := by
  refine ⟨fun k op => ⟨?range, fun hgroup => ?verdict⟩, fun s hfault hpc hgroup => ?taken,
    fun s t v hstep hlatch => ?only⟩
  case range =>
    rintro ⟨low, hdecode⟩
    rw [(decodeWith_eq_illegal_iff k op low).1 hdecode, illegalOpcode_group]
  case verdict => exact ⟨_, (decodeWith_eq_illegal_iff k op _).2 (illegalOpcode_of_group hgroup)⟩
  case taken =>
    have hop := illegalOpcode_of_group hgroup
    have hnext := (decodeWith_eq_illegal_iff s.cfg.codes _ _).2 hop
    refine ⟨pausePoint_of_illegal hnext, raise .decodeError (fetch s) s, ?_, faultTaken_raise _ _ s, step_raise _ _ s⟩
    rw [step_of_running hfault hpc, decodeNext, hnext, exec_illegal, ← hop]
  case only =>
    obtain ⟨hfault, -, hexec⟩ := exec_of_step hstep
    rcases fault_of_exec hexec with hkept | ⟨low, hillegal, rfl⟩ | ⟨addr, -, -, -, rfl⟩
    · rw [hkept, hfault] at hlatch; cases hlatch
    · have hop := fetch_of_decodeNext_illegal hillegal
      cases hlatch
      exact ⟨by rw [hop, illegalOpcode_group], hop.symm⟩
    · cases hlatch

/-- Settles O26: with no fault before the step, one after it was raised by the step, and raising sets the latch alone
(44_execution_step.md R147). -/
theorem faultsArePrecise : Obligations.FaultsArePrecise := by
  intro s t hstep hlatch
  obtain ⟨hfault, -, hexec⟩ := exec_of_step hstep
  rcases fault_of_exec hexec with hkept | ⟨low, -, rfl⟩ | ⟨addr, -, -, -, rfl⟩
  · rw [hkept] at hlatch; exact absurd hfault hlatch
  · rfl
  · rfl

/-! ### Frames over all instructions -/

/-- Settles O27: only a register write touches the file, and it writes the destination (44_execution_step.md R148). -/
theorem registersChangeOnlyAtDestination : Obligations.RegistersChangeOnlyAtDestination := by
  intro i s t hexec q hq
  cases effect_of_exec hexec with
  | replace i r v hdest =>
    have hne : q ≠ r := fun h => hq (h ▸ hdest)
    rw [readReg_advance, readReg_writeReg_other v s hne]
  | store | decodeFault | boundsFault => rfl
  | branch c r => exact readReg_branchTo _ r s q
  | alu o rd rs =>
    have hne : q ≠ rd := fun h => hq (h ▸ destination_aluInstr o rd rs)
    exact readReg_aluStep_other o rs s hne

/-- Settles O28: only ST writes memory, at the cell its address names (44_execution_step.md R148). -/
theorem memoryChangesOnlyAtStoredCell : Obligations.MemoryChangesOnlyAtStoredCell := by
  intro i s t a hexec hother
  cases effect_of_exec hexec with
  | replace | alu | decodeFault | boundsFault => rfl
  | store r b haddr =>
    have hne : a ≠ b := fun h => hother r rfl (h ▸ haddr)
    exact read_write_other s.mem _ hne
  | branch c r => rw [branchTo_mem]

/-- An instruction that is no taken branch and takes no fault advances (44_execution_step.md R143). -/
theorem pc_of_exec_not_taken {i : Instr} {s t : State} (hexec : exec i s = .next t) (hlatch : t.fault = none)
    (htaken : takenTarget i s = none) : t.pc = s.pc + 1#8 := by
  cases effect_of_exec hexec with
  | replace | store | alu => rfl
  | branch c r =>
    rw [takenTarget_branchInstr] at htaken
    have hholds : ¬ condHolds c s.zf s.sf = true := fun h => by simp [h] at htaken
    rw [branchTo_pc, if_neg hholds]
  | decodeFault | boundsFault => cases hlatch

/-- Below the memory's end the increment of `pc` does not wrap. -/
theorem toNat_succ_of_lt {v : Byte} (h : v.toNat < memSize) : (v + 1#8).toNat = v.toNat + 1 := by
  rw [memSize_eq] at h
  rw [BitVec.toNat_add]
  exact Nat.mod_eq_of_lt (by simpa using by omega)

/-- Settles O29: precise on a fault, the write of the target for a taken branch, and the advance below 10 for the rest
(44_execution_step.md R143, R147). -/
theorem pcHoldsOrBranchesOrIncrements : Obligations.PcHoldsOrBranchesOrIncrements := by
  intro s t hstep
  obtain ⟨-, hpc, hexec⟩ := exec_of_step hstep
  refine ⟨fun hlatch => ?held, fun _ target htaken => ?taken, fun hlatch htaken => ?increment⟩
  case held => rw [faultsArePrecise s t hstep hlatch]
  case taken =>
    rw [exec_of_takenTarget htaken] at hexec
    cases hexec; rfl
  case increment => rw [pc_of_exec_not_taken hexec hlatch htaken, toNat_succ_of_lt hpc]

/-! ### Updates an instruction does not see -/

/-- An update of the state that leaves what an instruction reads but for the flags (`pc`, registers, memory, both policies) and
commutes with what it writes but for the flags. Setting a flag and setting the host's booleans are such updates. -/
structure Transparent (u : State → State) : Prop where
  pc_eq : ∀ s, (u s).pc = s.pc
  regs_eq : ∀ s, (u s).regs = s.regs
  mem_eq : ∀ s, (u s).mem = s.mem
  oobPolicy_eq : ∀ s, (u s).cfg.oobPolicy = s.cfg.oobPolicy
  subOrder_eq : ∀ s, (u s).cfg.subOrder = s.cfg.subOrder
  writeReg_comm : ∀ r v s, writeReg r v (u s) = u (writeReg r v s)
  writeMem_comm : ∀ a v s, writeMem a v (u s) = u (writeMem a v s)
  writePc_comm : ∀ v s, writePc v (u s) = u (writePc v s)
  raise_comm : ∀ c v s, raise c v (u s) = u (raise c v s)

namespace Transparent

variable {u : State → State} (hu : Transparent u)
include hu

theorem readReg_eq (r : Reg) (s : State) : readReg (u s) r = readReg s r := by
  rw [readReg, hu.regs_eq, readReg]

theorem advance_comm (s : State) : advance (u s) = u (advance s) := by
  rw [advance, hu.pc_eq, hu.writePc_comm, advance]

theorem withDataAccess_comm (addr : Byte) {access : Nat → State → State}
    (haccess : ∀ a s, access a (u s) = u (access a s)) (s : State) :
    withDataAccess addr access (u s) = u (withDataAccess addr access s) := by
  have hpolicy := hu.oobPolicy_eq s
  cases haddr : effectiveAddress s.cfg.oobPolicy addr with
  | some a => rw [withDataAccess_of_some haddr, withDataAccess_of_some (hpolicy ▸ haddr), haccess, hu.advance_comm]
  | none => rw [withDataAccess_of_none haddr, withDataAccess_of_none (hpolicy ▸ haddr), hu.raise_comm]

theorem branchTo_comm (taken : Bool) (r : Reg) (s : State) : branchTo taken r (u s) = u (branchTo taken r s) := by
  cases taken with
  | true =>
    calc writePc (readReg (u s) r) (u s)
        = writePc (readReg s r) (u s) := by rw [hu.readReg_eq]
      _ = u (writePc (readReg s r) s) := hu.writePc_comm _ s
  | false => exact hu.advance_comm s

theorem aluStep_comm (hflags : ∀ v s, writeFlags v (u s) = u (writeFlags v s)) (o : AluOp) (rd rs : Reg) (s : State) :
    aluStep o rd rs (u s) = u (aluStep o rd rs s) := by
  simp only [aluStep, hu.readReg_eq, hu.subOrder_eq, hflags, hu.writeReg_comm, hu.advance_comm]

/-- Every instruction commutes with such an update, if its condition (for a branch) reads alike and its flag writes (for an ALU
instruction) commute. -/
theorem exec_comm {i : Instr} {s t : State}
    (hcond : ∀ c r, i = branchInstr c r → condHolds c (u s).zf (u s).sf = condHolds c s.zf s.sf)
    (halu : isAlu i = true → ∀ v x, writeFlags v (u x) = u (writeFlags v x))
    (h : exec i s = .next t) : exec i (u s) = .next (u t) := by
  induction i using instr_cases with
  | movl r imm4 => rw [exec_movl] at h ⊢; cases h; rw [hu.readReg_eq, hu.writeReg_comm, hu.advance_comm]
  | movh r imm4 => rw [exec_movh] at h ⊢; cases h; rw [hu.readReg_eq, hu.writeReg_comm, hu.advance_comm]
  | ld r =>
    rw [exec_ld] at h ⊢; cases h
    rw [hu.readReg_eq, hu.withDataAccess_comm _ fun a x => by rw [hu.mem_eq, hu.writeReg_comm]]
  | st r =>
    rw [exec_st] at h ⊢; cases h
    rw [hu.readReg_eq, hu.withDataAccess_comm _ fun a x => by rw [hu.readReg_eq, hu.writeMem_comm]]
  | branch c r => rw [exec_branchInstr] at h ⊢; cases h; rw [hcond c r rfl, hu.branchTo_comm]
  | alu o rd rs => rw [exec_aluInstr] at h ⊢; cases h; rw [hu.aluStep_comm (halu (isAlu_aluInstr o rd rs))]
  | illegal low => rw [exec_illegal] at h ⊢; cases h; rw [hu.raise_comm]

end Transparent

theorem transparent_setFlags (z f : Bool) : Transparent fun s => { s with zf := z, sf := f } := by
  constructor <;> intros <;> rfl

theorem transparent_setZf (z : Bool) : Transparent fun s => { s with zf := z } := by
  constructor <;> intros <;> rfl

theorem transparent_setSf (f : Bool) : Transparent fun s => { s with sf := f } := by
  constructor <;> intros <;> rfl

theorem transparent_withHostFlags (debugEn logEn : Bool) : Transparent (withHostFlags debugEn logEn) := by
  constructor <;> intros <;> rfl

/-! ### Who writes and who reads the flags -/

theorem exists_aluInstr_of_isAlu {i : Instr} (h : isAlu i = true) : ∃ o rd rs, i = aluInstr o rd rs := by
  induction i using instr_cases with
  | alu o rd rs => exact ⟨o, rd, rs, rfl⟩
  | branch c r => rw [isAlu_branchInstr] at h; cases h
  | movl | movh | ld | st | illegal => cases h

/-- The flags after an ALU instruction are those of its result, in its destination (43_alu.md R121). -/
theorem flags_of_exec_alu {i : Instr} {s t : State} (hexec : exec i s = .next t) (halu : isAlu i = true) :
    ∃ rd, destination i = some rd ∧ t.zf = (readReg t rd == 0#8) ∧ t.sf = (readReg t rd).getLsbD 7 := by
  obtain ⟨o, rd, rs, rfl⟩ := exists_aluInstr_of_isAlu halu
  rw [exec_aluInstr] at hexec
  cases hexec
  exact ⟨rd, destination_aluInstr o rd rs, aluStep_zf o rd rs s, by rw [aluStep_sf, signFlag_eq]⟩

theorem flagsKept_of_exec {i : Instr} {s t : State} (hexec : exec i s = .next t) (hplain : isAlu i = false) :
    flagsKept s t := by
  cases effect_of_exec hexec with
  | replace | store | decodeFault | boundsFault => exact ⟨rfl, rfl⟩
  | branch c r => exact ⟨branchTo_zf _ r s, branchTo_sf _ r s⟩
  | alu o rd rs => rw [isAlu_aluInstr] at hplain; cases hplain

/-- An ALU instruction overwrites both flags and reads neither. -/
theorem exec_alu_of_other_flags {i : Instr} {s t : State} (hexec : exec i s = .next t) (halu : isAlu i = true)
    (z f : Bool) : exec i { s with zf := z, sf := f } = .next t := by
  obtain ⟨o, rd, rs, rfl⟩ := exists_aluInstr_of_isAlu halu
  rw [exec_aluInstr] at hexec ⊢
  cases hexec; rfl

theorem pc_of_exec_branchInstr {c : Cond} {r : Reg} {s t : State} (hexec : exec (branchInstr c r) s = .next t) :
    t.pc = if condHolds c s.zf s.sf = true then readReg s r else s.pc + 1#8 := by
  rw [exec_branchInstr] at hexec
  cases hexec
  exact branchTo_pc _ r s

/-- Settles O22: the ALU writes the flags from its result and overwrites both, and every other instruction commutes with a change
of the flags its condition does not read (10_state.md R27). -/
theorem flagsWrittenByAluReadByBranches : Obligations.FlagsWrittenByAluReadByBranches := by
  refine ⟨fun i s t hexec => ⟨flags_of_exec_alu hexec, flagsKept_of_exec hexec⟩,
    fun i s t z f hexec halu => exec_alu_of_other_flags hexec halu z f,
    fun i s t z f hexec hplain hnone => ?unconditional, fun r i s t f hi hexec => ?zeroOnly,
    fun r s t z hexec => ?signOnly, fun r s t => ⟨?beq, ?bne, ?bge⟩⟩
  case unconditional =>
    refine (transparent_setFlags z f).exec_comm (fun c r hi => ?_) (fun halu => ?_) hexec
    · obtain ⟨hbeq, hbne, hbge⟩ := hnone r
      cases c with
      | always => rfl
      | eq => exact absurd hi hbeq
      | ne => exact absurd hi hbne
      | ge => exact absurd hi hbge
    · rw [hplain] at halu; cases halu
  case zeroOnly =>
    refine (transparent_setSf f).exec_comm (fun c q hc => ?_) (fun halu => ?_) hexec
    · cases c with
      | always | eq | ne => rfl
      | ge => rcases hi with rfl | rfl <;> cases hc
    · rcases hi with rfl | rfl <;> cases halu
  case signOnly =>
    refine (transparent_setZf z).exec_comm (fun c q hc => ?_) (fun halu => ?_) hexec
    · cases c with
      | always | ge => rfl
      | eq | ne => cases hc
    · cases halu
  case beq => exact fun hexec => pc_of_exec_branchInstr (c := .eq) hexec
  case bne => exact fun hexec => by simpa [condHolds] using pc_of_exec_branchInstr (c := .ne) hexec
  case bge => exact fun hexec => by simpa [condHolds] using pc_of_exec_branchInstr (c := .ge) hexec

/-! ### The host's booleans -/

theorem cfg_of_exec {i : Instr} {s t : State} (hexec : exec i s = .next t) : t.cfg = s.cfg := by
  cases effect_of_exec hexec with
  | replace | store | alu | decodeFault | boundsFault => rfl
  | branch c r => exact branchTo_cfg _ r s

@[simp] theorem haltTest_withHostFlags (debugEn logEn : Bool) (s : State) :
    haltTest (withHostFlags debugEn logEn s) = haltTest s := rfl

@[simp] theorem decodeNext_withHostFlags (debugEn logEn : Bool) (s : State) :
    decodeNext (withHostFlags debugEn logEn s) = decodeNext s := rfl

/-- Settles O30: the halt test and the decoder do not read the booleans, and every instruction commutes with setting them
(60_exceptions.md R200, R201). -/
theorem hostFlagsNeverAffectTheStep : Obligations.HostFlagsNeverAffectTheStep := by
  refine ⟨fun s t hstep => ?_, fun debugEn logEn s t hstep => ?_, fun debugEn logEn s why hstep => ?_⟩
  · obtain ⟨-, -, hexec⟩ := exec_of_step hstep
    exact cfg_of_exec hexec
  · obtain ⟨hfault, hpc, hexec⟩ := exec_of_step hstep
    have hrunning : step (withHostFlags debugEn logEn s) = exec (decodeNext s) (withHostFlags debugEn logEn s) := by
      rw [← decodeNext_withHostFlags debugEn logEn]; exact step_of_running hfault hpc
    rw [hrunning]
    exact (transparent_withHostFlags debugEn logEn).exec_comm (fun _ _ _ => rfl) (fun _ _ _ => rfl) hexec
  · rw [step_eq_fault_iff] at hstep ⊢
    rw [haltTest_withHostFlags, hstep]

/-! ### The invariant -/

/-- A byte that is zero has a clear sign bit (43_alu.md R121). -/
theorem not_zeroFlag_and_signFlag (v : Byte) : ¬ (zeroFlag v = true ∧ signFlag v = true) := by
  rintro ⟨hzero, hsign⟩
  rw [(zeroFlag_iff v).1 hzero] at hsign
  exact absurd hsign (by decide)

theorem wf_mem_of_exec {i : Instr} {s t : State} (hexec : exec i s = .next t) (hwf : s.mem.wf = true) :
    t.mem.wf = true := by
  cases effect_of_exec hexec with
  | replace | alu | decodeFault | boundsFault => exact hwf
  | store r a haddr => exact wf_write hwf (effectiveAddress_lt haddr) _
  | branch c r => rw [branchTo_mem]; exact hwf

theorem flags_not_both_of_exec {i : Instr} {s t : State} (hexec : exec i s = .next t)
    (hflags : ¬ (s.zf = true ∧ s.sf = true)) : ¬ (t.zf = true ∧ t.sf = true) := by
  cases effect_of_exec hexec with
  | replace | store | decodeFault | boundsFault => exact hflags
  | branch c r => rw [branchTo_zf, branchTo_sf]; exact hflags
  | alu o rd rs => rw [aluStep_zf, aluStep_sf]; exact not_zeroFlag_and_signFlag _

theorem latchTruthful_of_none {s : State} (h : s.fault = none) : latchTruthful s = true := by
  rw [latchTruthful, h]

theorem latchTruthful_raise_decodeError {s : State} {low : Nibble} (hpc : s.pc.toNat < memSize)
    (hillegal : decodeNext s = .illegal low) : latchTruthful (raise .decodeError (illegalOpcode low) s) = true := by
  have hfetch : fetch (raise .decodeError (illegalOpcode low) s) = illegalOpcode low :=
    fetch_of_decodeNext_illegal hillegal
  simp [latchTruthful, hfetch, illegalOpcode_group, hpc]

theorem latchTruthful_raise_boundsError {s : State} {addr : Byte} (hpc : s.pc.toNat < memSize)
    (hpolicy : s.cfg.oobPolicy = .fault) (hrange : memSize ≤ addr.toNat)
    (haddr : dataAddress (decodeNext s) s = some addr) : latchTruthful (raise .boundsError addr s) = true := by
  have haddr' : dataAddress (decodeNext (raise .boundsError addr s)) (raise .boundsError addr s) = some addr := by
    rw [← haddr]; rfl
  simp [latchTruthful, haddr', hpc, hpolicy, hrange]

/-- The latch a step leaves is empty, or it was set by this step for the instruction at `pc`. -/
theorem latchTruthful_of_step {s t : State} (hstep : step s = .next t) : latchTruthful t = true := by
  obtain ⟨hfault, hpc, hexec⟩ := exec_of_step hstep
  rcases fault_of_exec hexec with hkept | ⟨low, hillegal, rfl⟩ | ⟨addr, hpolicy, hrange, haddr, rfl⟩
  · exact latchTruthful_of_none (hkept.trans hfault)
  · exact latchTruthful_raise_decodeError hpc hillegal
  · exact latchTruthful_raise_boundsError hpc hpolicy hrange haddr

/-- Settles O35: each clause is kept by every instruction, and the latch tells the truth about the instruction a step ran. -/
theorem everyStepKeepsTheInvariant : Obligations.EveryStepKeepsTheInvariant := by
  rintro s t ⟨hmem, hcfg, hflags, -⟩ hstep
  obtain ⟨-, -, hexec⟩ := exec_of_step hstep
  exact ⟨wf_mem_of_exec hexec hmem, cfg_of_exec hexec ▸ hcfg, flags_not_both_of_exec hexec hflags,
    latchTruthful_of_step hstep⟩

/-! ### Reset -/

/-- Settles O32: reset sets each element, and the default image is the empty memory (70_reset_and_hazards.md R210). -/
theorem resetPutsEveryElementAtItsValue : Obligations.ResetPutsEveryElementAtItsValue := by
  refine ⟨fun c file => ⟨rfl, rfl, rfl, rfl, rfl, rfl⟩, fun r => ?_, fun a => ?_⟩
  · cases r <;> rfl
  · rw [State.reset, resetWith_mem, ofFile_nil, read_nil]; rfl

theorem inv_resetWith {c : Config} (hc : c.wf = true) (file : List Byte) : Inv (State.resetWith c file) :=
  ⟨wf_ofFile file, hc, fun h => Bool.noConfusion h.1, latchTruthful_of_none (resetWith_fault c file)⟩

/-- Settles O34: the image is canonical, and flags and latch are clear. -/
theorem resetMeetsTheInvariant : Obligations.ResetMeetsTheInvariant :=
  ⟨inv_resetWith rfl [], fun _ file hc => inv_resetWith hc file⟩

end Sys2Proof.Machine
end

section
/-! The structural design (45_block_interfaces.md). On a word of each format the decoder's outputs select one row of the control
table, and that row drives the ports to the same step as the instruction's meaning. -/

namespace Sys2Proof.Machine

/-! ### The decoder's outputs, signal by signal

The signals the rows use are the document's fields, LSB-0 slices and MSB-first extractions of the same bits (00_scope.md R7, R8).
The `kind` and `mode` outputs are given on the words of each format. -/

theorem decoderOut_imm4 (op : Byte) : (decoderOut op).imm4 = extract op 4 4 := rfl
theorem decoderOut_cond (op : Byte) : (decoderOut op).cond = extract op 4 2 := rfl
theorem decoderOut_aop (op : Byte) : (decoderOut op).aop = extract op 2 2 := rfl
theorem decoderOut_illegal (op : Byte) : (decoderOut op).illegal = (extract op 0 4 == 0b1011#4) := rfl

theorem decoderOut_not_illegal_of_mode {op : Byte} (hmode : extract op 0 2 ≠ 0b10#2) : (decoderOut op).illegal = false := by
  revert op; decide

theorem decoderOut_kind_moveLow (r : Reg) (imm4 : Nibble) : (decoderOut (formatM 0b00#2 r imm4)).kind = .move := by
  revert imm4; cases r <;> decide
theorem decoderOut_modeHigh_moveLow (r : Reg) (imm4 : Nibble) : (decoderOut (formatM 0b00#2 r imm4)).modeHigh = false := by
  revert imm4; cases r <;> decide
theorem decoderOut_kind_moveHigh (r : Reg) (imm4 : Nibble) : (decoderOut (formatM 0b01#2 r imm4)).kind = .move := by
  revert imm4; cases r <;> decide
theorem decoderOut_modeHigh_moveHigh (r : Reg) (imm4 : Nibble) : (decoderOut (formatM 0b01#2 r imm4)).modeHigh = true := by
  revert imm4; cases r <;> decide
theorem decoderOut_kind_load (c : BitVec 2) (r : Reg) : (decoderOut (formatS 0b1000#4 c r)).kind = .load := by
  revert c; cases r <;> decide
theorem decoderOut_kind_store (c : BitVec 2) (r : Reg) : (decoderOut (formatS 0b1001#4 c r)).kind = .store := by
  revert c; cases r <;> decide
theorem decoderOut_kind_branch (c : BitVec 2) (r : Reg) : (decoderOut (formatS 0b1010#4 c r)).kind = .branch := by
  revert c; cases r <;> decide
theorem decoderOut_kind_alu (aop : BitVec 2) (rs rd : Reg) : (decoderOut (formatA aop rs rd)).kind = .alu := by
  revert aop; cases rs <;> cases rd <;> decide

/-! ### The row of the control table each format selects (45_block_interfaces.md R162) -/

theorem controls_moveLow (r : Reg) (imm4 : Nibble) : controls (decoderOut (formatM 0b00#2 r imm4)) =
    { portA := some (regBits r), portB := none, rfWrite := some (regBits r, .moveLow)
      memRe := false, memWe := false, flagsWe := false, pcSel := .inc } := by
  have hreg : (decoderOut (formatM 0b00#2 r imm4)).rM = regBits r := extract_formatM_reg _ r imm4
  simp [controls, decoderOut_kind_moveLow, decoderOut_modeHigh_moveLow, hreg]

theorem controls_moveHigh (r : Reg) (imm4 : Nibble) : controls (decoderOut (formatM 0b01#2 r imm4)) =
    { portA := some (regBits r), portB := none, rfWrite := some (regBits r, .moveHigh)
      memRe := false, memWe := false, flagsWe := false, pcSel := .inc } := by
  have hreg : (decoderOut (formatM 0b01#2 r imm4)).rM = regBits r := extract_formatM_reg _ r imm4
  simp [controls, decoderOut_kind_moveHigh, decoderOut_modeHigh_moveHigh, hreg]

theorem decoderOut_rS_formatS (p : BitVec 4) (c : BitVec 2) (r : Reg) : (decoderOut (formatS p c r)).rS = regBits r :=
  extract_formatS_reg p c r

theorem controls_load (c : BitVec 2) (r : Reg) : controls (decoderOut (formatS 0b1000#4 c r)) =
    { portA := some (regBits r), portB := none, rfWrite := some (regBits r, .loaded)
      memRe := true, memWe := false, flagsWe := false, pcSel := .inc } := by
  simp [controls, decoderOut_kind_load, decoderOut_rS_formatS]

theorem controls_store (c : BitVec 2) (r : Reg) : controls (decoderOut (formatS 0b1001#4 c r)) =
    { portA := some (regBits .r0), portB := some (regBits r), rfWrite := none
      memRe := false, memWe := true, flagsWe := false, pcSel := .inc } := by
  simp [controls, decoderOut_kind_store, decoderOut_rS_formatS, regBits]

theorem controls_branch (c : BitVec 2) (r : Reg) : controls (decoderOut (formatS 0b1010#4 c r)) =
    { portA := some (regBits r), portB := none, rfWrite := none
      memRe := false, memWe := false, flagsWe := false, pcSel := .target } := by
  simp [controls, decoderOut_kind_branch, decoderOut_rS_formatS]

theorem controls_alu (aop : BitVec 2) (rs rd : Reg) : controls (decoderOut (formatA aop rs rd)) =
    { portA := some (regBits rd), portB := some (regBits rs), rfWrite := some (regBits rd, .aluResult)
      memRe := false, memWe := false, flagsWe := true, pcSel := .inc } := by
  have hrd : (decoderOut (formatA aop rs rd)).rd = regBits rd := extract_formatA_rd aop rs rd
  have hrs : (decoderOut (formatA aop rs rd)).rs = regBits rs := extract_formatA_rs aop rs rd
  simp [controls, decoderOut_kind_alu, hrd, hrs]

/-! ### Ports and conditions -/

theorem portValue_regBits (s : State) (r : Reg) : portValue s.regs (some (regBits r)) = readReg s r := by
  rw [portValue, regOfBits_regBits, readReg]

/-- The `holds` signal is the branch condition (42_branch.md R110, 45_block_interfaces.md R165). -/
theorem holdsSignal_eq_condHolds (c : Cond) (zf sf : Bool) : holdsSignal c zf sf = condHolds c zf sf := by
  cases c <;> cases zf <;> cases sf <;> rfl

/-- A branch writes `pc` in any case, to one of the two inputs of the selector (45_block_interfaces.md R165). -/
theorem branchTo_eq_writePc (taken : Bool) (r : Reg) (s : State) :
    branchTo taken r s = writePc (if taken = true then readReg s r else s.pc + 1#8) s := by
  cases taken <;> rfl

/-! ### The structural step on each format -/

section
variable {s : State} (hfault : s.fault = none) (hpc : ¬ memSize ≤ s.pc.toNat)
include hfault hpc

theorem datapathStep_moveLow {r : Reg} {imm4 : Nibble} (hop : fetch s = formatM 0b00#2 r imm4) :
    datapathStep s = exec (.movl r imm4) s := by
  have hlegal : (decoderOut (formatM 0b00#2 r imm4)).illegal = false := decoderOut_not_illegal_of_mode (by simp)
  rw [fetch] at hop
  rw [exec_movl, mergeLow_eq_append]
  simp [datapathStep, hfault, hpc, hop, hlegal, controls_moveLow, portValue_regBits, selectData, decoderOut_imm4,
    advance, writePc, writeReg]

theorem datapathStep_moveHigh {r : Reg} {imm4 : Nibble} (hop : fetch s = formatM 0b01#2 r imm4) :
    datapathStep s = exec (.movh r imm4) s := by
  have hlegal : (decoderOut (formatM 0b01#2 r imm4)).illegal = false := decoderOut_not_illegal_of_mode (by simp)
  rw [fetch] at hop
  rw [exec_movh, mergeHigh_eq_append]
  simp [datapathStep, hfault, hpc, hop, hlegal, controls_moveHigh, portValue_regBits, selectData, decoderOut_imm4,
    advance, writePc, writeReg]

theorem datapathStep_load {c : BitVec 2} {r : Reg} (hop : fetch s = formatS 0b1000#4 c r) :
    datapathStep s = exec (.ld r) s := by
  rw [fetch] at hop
  cases haddr : effectiveAddress s.cfg.oobPolicy (readReg s r) with
  | some a =>
    rw [exec_ld_of_cell haddr]
    simp [datapathStep, hfault, hpc, hop, decoderOut_illegal, controls_load, portValue_regBits, haddr, selectData,
      advance, writePc, writeReg]
  | none =>
    rw [exec_ld_of_no_cell haddr]
    simp [datapathStep, hfault, hpc, hop, decoderOut_illegal, controls_load, portValue_regBits, haddr, raise]

theorem datapathStep_store {c : BitVec 2} {r : Reg} (hop : fetch s = formatS 0b1001#4 c r) :
    datapathStep s = exec (.st r) s := by
  rw [fetch] at hop
  cases haddr : effectiveAddress s.cfg.oobPolicy (readReg s .r0) with
  | some a =>
    rw [exec_st_of_cell haddr]
    simp [datapathStep, hfault, hpc, hop, decoderOut_illegal, controls_store, portValue_regBits, haddr,
      advance, writePc, writeMem]
  | none =>
    rw [exec_st_of_no_cell haddr]
    simp [datapathStep, hfault, hpc, hop, decoderOut_illegal, controls_store, portValue_regBits, haddr, raise]

theorem datapathStep_branch {c : BitVec 2} {r : Reg} (hop : fetch s = formatS 0b1010#4 c r) :
    datapathStep s = exec (branchInstr (condOf s.cfg.codes.cond c) r) s := by
  rw [fetch] at hop
  rw [exec_branchInstr, branchTo_eq_writePc]
  simp [datapathStep, hfault, hpc, hop, decoderOut_illegal, controls_branch, decoderOut_kind_branch, decoderOut_cond,
    holdsSignal_eq_condHolds, portValue_regBits, writePc]

theorem datapathStep_alu {aop : BitVec 2} {rs rd : Reg} (hop : fetch s = formatA aop rs rd) :
    datapathStep s = exec (aluInstr (aluOpOf s.cfg.codes.alu aop) rd rs) s := by
  have hlegal : (decoderOut (formatA aop rs rd)).illegal = false := decoderOut_not_illegal_of_mode (by simp)
  rw [fetch] at hop
  rw [exec_aluInstr]
  simp [datapathStep, hfault, hpc, hop, hlegal, controls_alu, decoderOut_aop, portValue_regBits, selectData,
    aluStep, advance, writePc, writeReg, writeFlags, signFlag_eq, zeroFlag]

theorem datapathStep_illegal {low : Nibble} (hop : fetch s = illegalOpcode low) :
    datapathStep s = exec (.illegal low) s := by
  rw [fetch] at hop
  rw [exec_illegal]
  simp [datapathStep, hfault, hpc, hop, decoderOut_illegal, raise]

/-- Where a step exists the structural design runs the instruction the decoder answers. -/
theorem datapathStep_eq_exec : datapathStep s = exec (decodeNext s) s := by
  rw [decodeNext]
  generalize hop : fetch s = op
  cases opcodeForm op with
  | moveLow r imm4 => rw [datapathStep_moveLow hfault hpc hop, decodeWith_formatM_low]
  | moveHigh r imm4 => rw [datapathStep_moveHigh hfault hpc hop, decodeWith_formatM_high]
  | load c r => rw [datapathStep_load hfault hpc hop, decodeWith_formatS_load]
  | store c r => rw [datapathStep_store hfault hpc hop, decodeWith_formatS_store]
  | branch c r => rw [datapathStep_branch hfault hpc hop, decodeWith_formatS_branch]
  | alu aop rs rd => rw [datapathStep_alu hfault hpc hop, decodeWith_formatA]
  | illegal low => rw [datapathStep_illegal hfault hpc hop, decodeWith_illegalOpcode]

end

/-- Settles O37: both designs stop for the same reason, and where a step exists both run the decoded instruction. -/
theorem datapathEqualsTheStep : Obligations.DatapathEqualsTheStep := by
  intro s
  cases hfault : s.fault with
  | some f => rw [step_of_fault hfault]; simp [datapathStep, hfault]
  | none =>
    by_cases hpc : memSize ≤ s.pc.toNat
    · rw [step_of_past_end hfault hpc]; simp [datapathStep, hfault, hpc]
    · rw [datapathStep_eq_exec hfault hpc, step_of_running hfault (Nat.lt_of_not_le hpc)]

end Sys2Proof.Machine
end

section
/-! Canonical memories (10_state.md R29). An entry's value never reads as an unlisted cell does, so the lists can be compared
entry by entry from the lowest address. -/

namespace Sys2Proof.Machine

/-- Below its first address a canonical list has no entry. -/
theorem read_of_lt_of_wfFrom {lo a : Nat} {m : Memory} (hm : Memory.wfFrom lo m = true) (ha : a < lo) :
    m.read a = unlistedByte := by
  induction m generalizing lo with
  | nil => rfl
  | cons c m ih =>
    obtain ⟨b, v⟩ := c
    obtain ⟨hlo, -, -, hrest⟩ := (wfFrom_cons _ _ _ _).1 hm
    rw [read_cons, if_neg (by omega), ih hrest (by omega)]

/-- Where a canonical list has its first entry, no canonical list that begins later reads the same. -/
theorem not_reads_alike_of_first_lt {lo a : Nat} {v : Byte} {m n : Memory}
    (hm : Memory.wfFrom lo ((a, v) :: m) = true) (hn : Memory.wfFrom (a + 1) n = true)
    (halike : ∀ b, b < memSize → Memory.read ((a, v) :: m) b = n.read b) : False := by
  obtain ⟨-, hlt, hv, -⟩ := (wfFrom_cons _ _ _ _).1 hm
  have hread := halike a hlt
  rw [read_cons, if_pos rfl, read_of_lt_of_wfFrom hn (Nat.lt_succ_self a)] at hread
  exact hv hread

theorem eq_of_reads_alike {lo : Nat} {m n : Memory} (hm : Memory.wfFrom lo m = true) (hn : Memory.wfFrom lo n = true)
    (halike : ∀ b, b < memSize → m.read b = n.read b) : m = n := by
  induction m generalizing lo n with
  | nil =>
    cases n with
    | nil => rfl
    | cons d n =>
      obtain ⟨e, w⟩ := d
      exact (not_reads_alike_of_first_lt hn (n := []) rfl fun b hb => (halike b hb).symm).elim
  | cons c m ih =>
    obtain ⟨a, v⟩ := c
    obtain ⟨hloa, ha, hv, hm'⟩ := (wfFrom_cons _ _ _ _).1 hm
    cases n with
    | nil => exact (not_reads_alike_of_first_lt hm (n := []) rfl halike).elim
    | cons d n =>
      obtain ⟨e, w⟩ := d
      obtain ⟨hloe, he, hw, hn'⟩ := (wfFrom_cons _ _ _ _).1 hn
      rcases Nat.lt_trichotomy a e with hlt | rfl | hlt
      · exact (not_reads_alike_of_first_lt hm ((wfFrom_cons _ _ _ _).2 ⟨hlt, he, hw, hn'⟩) halike).elim
      · have hvw : v = w := by simpa [read_cons] using halike a ha
        have htails : ∀ b, b < memSize → Memory.read m b = Memory.read n b := by
          intro b hb
          by_cases hab : a = b
          · rw [read_of_lt_of_wfFrom hm' (by omega), read_of_lt_of_wfFrom hn' (by omega)]
          · simpa [read_cons, hab] using halike b hb
        rw [hvw, ih hm' hn' htails]
      · exact (not_reads_alike_of_first_lt hn ((wfFrom_cons _ _ _ _).2 ⟨hlt, ha, hv, hm'⟩)
          fun b hb => (halike b hb).symm).elim

/-- Settles O36, by induction on the entries. -/
theorem canonicalMemoriesAreEqualData : Obligations.CanonicalMemoriesAreEqualData := fun _ _ hm hn halike =>
  eq_of_reads_alike hm hn halike

end Sys2Proof.Machine
end

section
/-! Straight runs (44_execution_step.md R146). Without a taken branch or a fault each step moves `pc` one up, so the run's length
is its distance to the end of the memory. -/

namespace Sys2Proof.Machine

open Sys2Proof.Safety

/-- The run takes no branch and no fault for `n` steps from `s`. -/
def StraightFor (n : Nat) (s : State) : Prop :=
  ∀ (j : Nat) (u : State), j ≤ n → Host.Core.run Sys2Proof.core j s = .next u →
    u.fault = none ∧ (j < n → takenTarget (decodeNext u) u = none)

theorem run_succ_of_step {s t : State} (hstep : step s = .next t) (k : Nat) :
    Host.Core.run Sys2Proof.core (k + 1) s = Host.Core.run Sys2Proof.core k t := by
  have hcore : Sys2Proof.core.step s = .next t := hstep
  simp only [Host.Core.run, hcore]

theorem StraightFor.start {n : Nat} {s : State} (h : StraightFor n s) :
    s.fault = none ∧ (0 < n → takenTarget (decodeNext s) s = none) := h 0 s (Nat.zero_le n) rfl

theorem StraightFor.tail {n : Nat} {s t : State} (h : StraightFor (n + 1) s) (hstep : step s = .next t) :
    StraightFor n t := by
  intro j u hj hrun
  obtain ⟨hfault, htaken⟩ := h (j + 1) u (Nat.succ_le_succ hj) (by rw [run_succ_of_step hstep, hrun])
  exact ⟨hfault, fun hlt => htaken (Nat.succ_lt_succ hlt)⟩

/-- A straight run of as many steps as there are cells from `pc` on ends at the memory's end and halts. -/
theorem run_of_straightFor {n : Nat} {s : State} (hpc : s.pc.toNat + n = memSize) (hs : StraightFor n s) :
    ∃ t, Host.Core.run Sys2Proof.core n s = .next t ∧ t.pc.toNat = memSize ∧ step t = .fault .halted := by
  induction n generalizing s with
  | zero => exact ⟨s, rfl, hpc, step_of_past_end hs.start.1 (Nat.le_of_eq hpc.symm)⟩
  | succ n ih =>
    obtain ⟨hfault, htaken⟩ := hs.start
    have hlt : s.pc.toNat < memSize := by omega
    obtain ⟨u, hstep⟩ := (step_exists_next_iff s).2 ⟨hfault, hlt⟩
    have hu := hs.tail hstep
    obtain ⟨-, -, hincrement⟩ := pcHoldsOrBranchesOrIncrements s u hstep
    have hpcu := hincrement hu.start.1 (htaken n.succ_pos)
    obtain ⟨t, hrun, ht⟩ := ih (by omega) hu
    exact ⟨t, by rw [run_succ_of_step hstep, hrun], ht⟩

/-- Settles O38, by induction on the number of cells from `pc` to the end. -/
theorem straightRunsHaltAtTen : Obligations.StraightRunsHaltAtTen := fun _ hpc hstraight =>
  run_of_straightFor (Nat.add_sub_cancel' hpc) hstraight

end Sys2Proof.Machine
end

section
/-! The debug pause (60_exceptions.md R200). The console prints and reads lines, and the machine moves only where a step command
releases `step`. -/

namespace Sys2Proof.Machine

theorem console_nil (s : State) (i : Instr) (replies : List DebugReply) : console s i replies [] = .aborted replies := rfl

theorem console_quit (s : State) (i : Instr) (replies : List DebugReply) (unread : List DebugCommand) :
    console s i replies (.quit :: unread) = .aborted replies := rfl

theorem console_step (s : State) (i : Instr) (replies : List DebugReply) (unread : List DebugCommand) :
    console s i replies (.step :: unread) = .ran (step s) replies unread := rfl

/-- Every other line is answered and read over. -/
theorem console_other {c : DebugCommand} (hquit : c ≠ .quit) (hstep : c ≠ .step) (s : State) (i : Instr)
    (replies : List DebugReply) (unread : List DebugCommand) :
    console s i replies (c :: unread) = console s i (replies ++ debugReply s i c) unread := by
  cases c with
  | quit => exact absurd rfl hquit
  | step => exact absurd rfl hstep
  | help | printRegisters | printRegister | printMemory | printCell | printInstruction | unrecognized => rfl

theorem console_ran {s : State} {i : Instr} {replies replies' : List DebugReply} {lines unread : List DebugCommand}
    {o : Host.Outcome State Fault Refusal} (h : console s i replies lines = .ran o replies' unread) : o = step s := by
  induction lines generalizing replies with
  | nil => rw [console_nil] at h; cases h
  | cons c lines ih =>
    by_cases hquit : c = .quit
    · rw [hquit, console_quit] at h; cases h
    by_cases hstep : c = .step
    · rw [hstep, console_step] at h; cases h; rfl
    rw [console_other hquit hstep] at h
    exact ih h

theorem console_step_before_quit (s : State) (i : Instr) (replies : List DebugReply) {before : List DebugCommand}
    (unread : List DebugCommand) (hbefore : .quit ∉ before) :
    ∃ replies' rest, console s i replies (before ++ .step :: unread) = .ran (step s) replies' rest := by
  induction before generalizing replies with
  | nil => exact ⟨replies, unread, console_step s i replies unread⟩
  | cons c before ih =>
    rw [List.mem_cons, not_or] at hbefore
    obtain ⟨hquit, hbefore'⟩ := hbefore
    by_cases hstep : c = .step
    · exact ⟨replies, before ++ .step :: unread, by rw [hstep, List.cons_append, console_step]⟩
    · rw [List.cons_append, console_other (Ne.symm hquit) hstep]
      exact ih _ hbefore'

theorem debugStep_of_no_pause {s : State} (h : pausePoint s = none) (lines : List DebugCommand) :
    debugStep s lines = .ran (step s) [] lines := by
  rw [debugStep, h]

theorem debugStep_of_pause {s : State} {i : Instr} (h : pausePoint s = some i) (lines : List DebugCommand) :
    debugStep s lines = console s i [] lines := by
  rw [debugStep, h]

/-- The machine pauses only with DEBUG_EN set. -/
theorem debugEn_of_pause {s : State} {i : Instr} (h : pausePoint s = some i) : s.cfg.debugEn = true := by
  cases hdebug : s.cfg.debugEn with
  | true => rfl
  | false => rw [pausePoint, hdebug] at h; cases h

/-- Settles O31: without a pause the step runs at once, and a pause is the console, which can only release `step`. -/
theorem debugPauseIsTransparent : Obligations.DebugPauseIsTransparent := by
  refine ⟨fun s lines unread replies o h => ?ran, fun s lines replies h => ?aborted, fun s before unread hquit => ?released⟩
  case ran =>
    cases hpause : pausePoint s with
    | none => rw [debugStep_of_no_pause hpause] at h; cases h; rfl
    | some i => rw [debugStep_of_pause hpause] at h; exact console_ran h
  case aborted =>
    cases hpause : pausePoint s with
    | none => rw [debugStep_of_no_pause hpause] at h; cases h
    | some i => exact debugEn_of_pause hpause
  case released =>
    cases hpause : pausePoint s with
    | none => exact ⟨_, _, debugStep_of_no_pause hpause _⟩
    | some i => rw [debugStep_of_pause hpause]; exact console_step_before_quit s i [] unread hquit

end Sys2Proof.Machine
end
